-- ==== Sys2Proof/Word.lean ====
section
/-! DEFINITION. The Word of the LS8 CORE: the N-bit unsigned value every stored datapath value is (10_state.md R16). -/
namespace Sys2Proof

/-- A Word: N = WORD_BITS = 8 bits (00_scope.md R7: "This hardware takes N = 8"; assumption log 1).
Memory cells, general registers, sp, fl and output events are Words; pc is not (10_state.md R23). -/
abbrev Word := BitVec 8

end Sys2Proof
end

