-- ==== Sys2Proof/Config.lean ====
section
/-! DEFINITION. The construction parameters of the CORE (00_scope.md R8 to R11, 70_reset_and_hazards.md R161).
Their default values stand in Machine/Parameters.lean, their admissible ranges in WellFormed.lean. -/
namespace Sys2Proof

/-- The mnemonics of the base instruction set, in the order of spec/opcode_table.json (00_scope.md R2). -/
inductive Mnemonic where
  | hlt | prn | ldi | add
deriving DecidableEq, Repr

/-- OPCODE_MAP: the opcode Word of each instruction (00_scope.md R11). -/
structure OpcodeMap where
  hlt : Word
  prn : Word
  ldi : Word
  add : Word
deriving DecidableEq, Repr

/-- The parameters fixed at construction (70_reset_and_hazards.md R161): MEM_LEN (R8), NUM_REGS (R9), ENTRY (R10)
and OPCODE_MAP (R11). WORD_BITS is the type Word (R7). -/
structure Config where
  memLen    : Nat
  numRegs   : Nat
  entry     : Nat
  opcodeMap : OpcodeMap
deriving DecidableEq, Repr

/-- SINK_HEX_CASE: the letter case in which the external sink prints hexadecimal digits, left open by the source
(42_output.md R107, 92_eei_decisions.md D21). No rule of the CORE reads it. -/
inductive HexCase where
  | lower | upper
deriving DecidableEq, Repr

end Sys2Proof
end

