-- ==== Sys2Proof/Syntax.lean ====
section
/-! DEFINITION. The decoded instructions: one constructor per row of spec/opcode_table.json. -/
namespace Sys2Proof

/-- A decoded instruction with its operand Words (30_encoding.md R60, R64). A register operand is kept as the raw
Word the program holds, because decode places no constraint on it (R64); the index is checked in execute (40_cycle.md R83). -/
inductive Instr where
  /-- `HLT` (44_halt.md R120). -/
  | hlt
  /-- `PRN Rr` (42_output.md R105). -/
  | prn (r : Word)
  /-- `LDI Rr, imm` (41_load_immediate.md R100). -/
  | ldi (r imm : Word)
  /-- `ADD Ra, Rb` (43_alu.md R113). -/
  | add (ra rb : Word)
deriving DecidableEq, Repr

end Sys2Proof
end

