-- ==== Sys2Proof/Machine/Attributes.lean ====
section
/-! DEFINITION. The fixed attributes of each instruction and the kinds of its operands (30_encoding.md R62, R64, R65). -/
namespace Sys2Proof

/-- The two operand kinds (30_encoding.md R64): a register index, or an N-bit immediate. -/
inductive OperandKind where
  | reg | imm
deriving DecidableEq, Repr

/-- The attributes of a valid opcode (30_encoding.md R65). The operand count k is the number of operand kinds. -/
structure Attributes where
  operandKinds : List OperandKind
  writesBack   : Bool
  usesAlu      : Bool
  setsPc       : Bool
  halts        : Bool
deriving DecidableEq, Repr

/-- The attribute table of 30_encoding.md R65. -/
def Mnemonic.attributes : Mnemonic → Attributes
  | .hlt => { operandKinds := [],           writesBack := false, usesAlu := false, setsPc := false, halts := true }
  | .prn => { operandKinds := [.reg],       writesBack := false, usesAlu := false, setsPc := false, halts := false }
  | .ldi => { operandKinds := [.reg, .imm], writesBack := true,  usesAlu := false, setsPc := false, halts := false }
  | .add => { operandKinds := [.reg, .reg], writesBack := true,  usesAlu := true,  setsPc := false, halts := false }

/-- The operand count k of an instruction (30_encoding.md R62). -/
def Mnemonic.operandCount (m : Mnemonic) : Nat := m.attributes.operandKinds.length

/-- The operand-count field AA, bits [7:6] of an opcode Word (30_encoding.md R60, R61). -/
def countField (opcode : Word) : Nat := opcode.toNat / 64

/-- The mnemonic of a decoded instruction. -/
def Instr.mnemonic : Instr → Mnemonic
  | .hlt => .hlt
  | .prn _ => .prn
  | .ldi _ _ => .ldi
  | .add _ _ => .add

/-- The operand Words op[1], op[2], in the order of their addresses (30_encoding.md R60). -/
def Instr.operands : Instr → List Word
  | .hlt => []
  | .prn r => [r]
  | .ldi r imm => [r, imm]
  | .add ra rb => [ra, rb]

/-- The Words that stand at operand positions of kind `r`, in operand order (30_encoding.md R64). -/
def regWords (m : Mnemonic) (ops : List Word) : List Word :=
  ((m.attributes.operandKinds.zip ops).filter (fun p => p.1 == .reg)).map (fun p => p.2)

/-- The register operands of a decoded instruction, in operand order: what 40_cycle.md R83 checks. -/
def Instr.regOperands (i : Instr) : List Word := regWords i.mnemonic i.operands

end Sys2Proof
end

