-- ==== Sys2Proof/Machine/Datapath.lean ====
section
/-! DEFINITION. The masking of the Word datapath (10_state.md R16 to R18). -/
namespace Sys2Proof.Machine

/-- `mask_N(v) = v AND (2^N − 1)` on the two's-complement bit pattern of the integer v (10_state.md R16). Total: out-of-range
and negative inputs are reduced, never rejected (R17). -/
def mask (v : Int) : Word := BitVec.ofInt 8 v

end Sys2Proof.Machine
end

