-- ==== Sys2Proof/Machine/Parameters.lean ====
section
/-! DEFINITION. The default parameter values of this hardware and the reset value of each piece of state
(00_scope.md R8 to R11, 30_encoding.md R66, 10_state.md R22 to R25). -/
namespace Sys2Proof

/-- OPCODE_MAP for N = 8 (30_encoding.md R66, opcode_table.json; UNVERIFIED: the spec takes the values from general
knowledge of LS8, 92_eei_decisions.md D7; assumption log 3, unsafe). -/
def OpcodeMap.base : OpcodeMap :=
  { hlt := 0x01, prn := 0x47, ldi := 0x82, add := 0xA0 }

/-- The default parameters: MEM_LEN = 256 (R8), NUM_REGS = 8 (R9), ENTRY = 0 (R10), the map of R66. -/
def Config.base : Config :=
  { memLen := 256, numRegs := 8, entry := 0, opcodeMap := OpcodeMap.base }

/-- Every general register resets to 0 (10_state.md R22; decision D5, assumption log 4). -/
def Config.resetRegs (c : Config) : List Word := List.replicate c.numRegs 0#8

/-- pc resets to ENTRY (10_state.md R23, 70_reset_and_hazards.md R162). -/
def Config.resetPc (c : Config) : Nat := c.entry

/-- sp resets to MEM_LEN − 1 as an N-bit Word (10_state.md R24; decision D6, assumption log 4). -/
def Config.resetSp (c : Config) : Word := BitVec.ofNat 8 (c.memLen - 1)

/-- fl resets to 0 (10_state.md R25; decision D8, assumption log 4). -/
def Config.resetFl (_c : Config) : Word := 0#8

end Sys2Proof
end

