-- ==== Sys2Proof/Machine/State.lean ====
section
/-! DEFINITION. The architectural state of the LS8 CORE as plain data (10_state.md), its reset, and the reasons a step
answers no next state. -/
namespace Sys2Proof.Machine

/-- An ALU operation tag (43_alu.md R110, R111). `add` is the only supported one; `other n` is any tag the ALU does not
implement (DESIGN CHOICE, assumption log 10: the spec gives tags no representation). -/
inductive AluTag where
  | add
  | other (n : Nat)
deriving DecidableEq, Repr

/-- Which access an OutOfBounds fault is about (60_exceptions.md R130). -/
inductive AccessKind where
  | opcodeFetch | operandFetch | registerIndex
deriving DecidableEq, Repr

/-- A fault record (10_state.md R27): the cause with its info (60_exceptions.md R130). -/
inductive FaultRecord where
  /-- `OutOfBounds (kind, index)`: the address of the failing fetch, or the register-index Word. -/
  | outOfBounds (kind : AccessKind) (index : Nat)
  /-- `InvalidOpcode opcode`. -/
  | invalidOpcode (opcode : Word)
  /-- `UnsupportedOperation tag`; unreachable in the base set (43_alu.md R111). -/
  | unsupportedOperation (tag : AluTag)
  /-- `AlreadyTerminated`; never raised (60_exceptions.md R131). -/
  | alreadyTerminated
deriving DecidableEq, Repr

/-- The engine status (10_state.md R26). The fault record exists only in status Faulted (R27), so it is its argument. -/
inductive Status where
  | ready | running | halted
  | faulted (record : FaultRecord)
deriving DecidableEq, Repr

/-- Memory: the cells that do not hold 0, by strictly rising address. An unlisted cell reads as 0, the value every cell
holds at reset (10_state.md R29). -/
abbrev Memory := List Host.Cell

/-- The state of the CORE (10_state.md §10), with the parameters fixed at its construction (70_reset_and_hazards.md R161). -/
structure State where
  /-- MEM_LEN, NUM_REGS, ENTRY and OPCODE_MAP (assumption log 2). -/
  cfg    : Config
  /-- The general registers R0 to R(NUM_REGS−1) (R19). -/
  regs   : List Word
  /-- The program counter: a natural number, not masked (R23). -/
  pc     : Nat
  /-- The stack pointer (R24). -/
  sp     : Word
  /-- The flags register (R25). -/
  fl     : Word
  /-- The engine status with its fault record (R26, R27). -/
  status : Status
  /-- The Words emitted since the last reset, oldest first (R28). -/
  out    : List Word
  /-- The Memory cells (R29). -/
  mem    : Memory
deriving DecidableEq, Repr

/-- The state right after construction or reset with parameters `c` (70_reset_and_hazards.md R160, R161). -/
def State.construct (c : Config) : State :=
  { cfg := c, regs := c.resetRegs, pc := c.resetPc, sp := c.resetSp, fl := c.resetFl,
    status := .ready, out := [], mem := [] }

/-- The machine right after reset with the default parameters. -/
def State.reset : State := State.construct Config.base

/-- Why the machine makes no step. Both are SAFE: the spec enables no step there (40_cycle.md R80, R87), and an instruction that
raises a fault of the CORE is a NEXT state with status Faulted, not one of these. -/
inductive Fault where
  /-- Raised by `Machine.transition` in status Halted: stuck, because Halted is terminal (40_cycle.md R87). Safe. -/
  | halted
  /-- Raised by `Machine.transition` in status Faulted, with the fault record: stuck, because Faulted is terminal
  (40_cycle.md R87, 60_exceptions.md R136). Safe. -/
  | faulted (record : FaultRecord)
deriving DecidableEq, Repr

/-- Why an instruction has no meaning. -/
inductive Refusal where
  /-- The instruction is not modelled. Safe; raised only by an arm of `exec`, and no arm raises it. -/
  | notModelled (mnemonic : String)
deriving DecidableEq, Repr

end Sys2Proof.Machine
end

