-- ==== Sys2Proof/Machine/Ops.lean ====
section
/-! DEFINITION. The named operations on memory, registers, the output port and pc, and taking a fault
(20_memory.md, 10_state.md, 42_output.md R105, 40_cycle.md R85, 60_exceptions.md R134). -/
namespace Sys2Proof.Machine

/-- The canonical form from address `lo` up: addresses strictly rising, none listed with the value 0. -/
def Memory.wfFrom : Nat → Memory → Bool
  | _, [] => true
  | lo, (a, v) :: m => decide (lo ≤ a) && v != 0#8 && Memory.wfFrom (a + 1) m

/-- The canonical form of a memory. -/
def Memory.wf (m : Memory) : Bool := Memory.wfFrom 0 m

/-- Every listed address is below `len`. -/
def Memory.below (len : Nat) (m : Memory) : Bool := m.all (fun c => decide (c.1 < len))

/-- The Word a cell holds; an unlisted cell holds 0 (10_state.md R29). -/
def Memory.get : Memory → Nat → Word
  | [], _ => 0#8
  | (b, w) :: m, a => if a = b then w else Memory.get m a

/-- Set a cell, keeping the canonical form: a cell set to 0 is unlisted. -/
def Memory.set : Memory → Nat → Word → Memory
  | [], a, v => if v = 0#8 then [] else [(a, v)]
  | (b, w) :: m, a, v =>
    if a < b then (if v = 0#8 then (b, w) :: m else (a, v) :: (b, w) :: m)
    else if a = b then (if v = 0#8 then m else (a, v) :: m)
    else (b, w) :: Memory.set m a v

/-- The error of an access outside [0, MEM_LEN), with the address as its info (20_memory.md R43, R44). -/
structure AddressError where
  address : Int
deriving DecidableEq, Repr

/-- `MemRead(addr, 1)` (20_memory.md R41, R43): the address is never wrapped or clamped. -/
def State.memRead (s : State) (addr : Int) : Except AddressError Word :=
  if 0 ≤ addr ∧ addr < s.cfg.memLen then .ok (s.mem.get addr.toNat) else .error ⟨addr⟩

/-- `MemWrite(addr, 1, v)` (20_memory.md R42, R44): stores `mask_N(v)`, or fails and writes nothing. -/
def State.memWrite (s : State) (addr v : Int) : Except AddressError State :=
  if 0 ≤ addr ∧ addr < s.cfg.memLen then .ok { s with mem := s.mem.set addr.toNat (mask v) } else .error ⟨addr⟩

/-- `x[i]` (10_state.md R19). Every caller has checked i < NUM_REGS (40_cycle.md R83); an index past the list, which the
invariant of Safety.lean rules out, reads 0 (assumption log 8). -/
def State.readReg (s : State) (i : Nat) : Word := s.regs.getD i 0#8

/-- `x[i] <- v` for a Word v (10_state.md R20; a Word's mask is itself, R18). -/
def State.writeReg (s : State) (i : Nat) (v : Word) : State := { s with regs := s.regs.set i v }

/-- `Emit(v)`: append v to the end of `out` (42_output.md R105, 10_state.md R28). -/
def State.emit (s : State) (v : Word) : State := { s with out := s.out ++ [v] }

/-- `status <- Halted` (44_halt.md R120). -/
def State.halt (s : State) : State := { s with status := .halted }

/-- Taking a fault: `status <- Faulted(cause, info)` and nothing else (60_exceptions.md R134, R135). There is no vector, saved
pc, mode change or return (R134, R136). -/
def State.raise (s : State) (f : FaultRecord) : State := { s with status := .faulted f }

/-- The program-counter advance of a completed instruction: `pc <- a + 1 + k`, exact and not masked, unless the
instruction halts or sets pc itself (40_cycle.md R85, R86). -/
def State.advance (s : State) (m : Mnemonic) : State :=
  if m.attributes.halts || m.attributes.setsPc then s else { s with pc := s.pc + 1 + m.operandCount }

/-- The numeric code of a fault cause (60_exceptions.md R130, decision D14). -/
def FaultRecord.code : FaultRecord → Nat
  | .outOfBounds _ _ => 1
  | .invalidOpcode _ => 2
  | .unsupportedOperation _ => 3
  | .alreadyTerminated => 4

end Sys2Proof.Machine
end

