-- ==== Sys2Proof/Machine/Flags.lean ====
section
/-! DEFINITION. Flag effects: the "possibly empty list of flag bits to write, which the engine applies to fl"
(43_alu.md R110). No operation of the base set has one (R112), and no bit of fl has a meaning (10_state.md R25). -/
namespace Sys2Proof.Machine

/-- One flag bit to write (43_alu.md R110; DESIGN CHOICE, assumption log 10: a bit position and its new value). -/
structure FlagEffect where
  bit   : Fin 8
  value : Bool
deriving DecidableEq, Repr

/-- Write one flag bit; every other bit of fl is unchanged. -/
def writeFlag (fl : Word) (e : FlagEffect) : Word :=
  if e.value then fl ||| (1#8 <<< e.bit.val) else fl &&& ~~~(1#8 <<< e.bit.val)

/-- Apply a list of flag effects to fl, in order (43_alu.md R110). -/
def State.applyFlags (s : State) (fx : List FlagEffect) : State := { s with fl := fx.foldl writeFlag s.fl }

end Sys2Proof.Machine
end

