-- ==== Sys2Proof/Machine/Operands.lean ====
section
/-! DEFINITION. The operand forms: the register-index check of execute and the value a register operand names
(30_encoding.md R64, 10_state.md R21, 40_cycle.md R83). An immediate operand is its own value. -/
namespace Sys2Proof.Machine

/-- A register index is valid when it is below NUM_REGS; it is never reduced modulo NUM_REGS (10_state.md R21). -/
def State.regValid (s : State) (w : Word) : Bool := decide (w.toNat < s.cfg.numRegs)

/-- The register-index check (40_cycle.md R83): the first invalid register operand, in operand order, is an OutOfBounds
fault of kind RegisterIndex. -/
def State.checkRegs (s : State) : List Word → Option FaultRecord
  | [] => none
  | w :: ws => if s.regValid w then s.checkRegs ws else some (.outOfBounds .registerIndex w.toNat)

end Sys2Proof.Machine
end

