-- ==== Sys2Proof/Machine/Alu.lean ====
section
/-! DEFINITION. The ALU and ADD (43_alu.md). -/
namespace Sys2Proof.Machine

/-- `ALU(op, a, b)`, a pure function (R110): ADD gives the masked sum and no flag effect (R112), and any other tag fails with
UnsupportedOperation (R111). -/
def alu (op : AluTag) (a b : Word) : Except FaultRecord (Word × List FlagEffect) :=
  match op with
  | .add => .ok (mask ((a.toNat : Int) + (b.toNat : Int)), [])
  | .other n => .error (.unsupportedOperation (.other n))

/-- `ADD Ra, Rb`: both registers are read, the ALU adds them, its flag effects are applied, the result is written to x[ra]
and pc advances by 3; or an OutOfBounds fault for the first of ra, rb that is ≥ NUM_REGS (R113). -/
def execAdd (ra rb : Word) (s : State) : Host.Outcome State Fault Refusal :=
  match s.checkRegs (Instr.add ra rb).regOperands with
  | some f => .next (s.raise f)
  | none =>
    match alu .add (s.readReg ra.toNat) (s.readReg rb.toNat) with
    | .error f => .next (s.raise f)
    | .ok (res, fx) => .next (((s.writeReg ra.toNat res).applyFlags fx).advance .add)

end Sys2Proof.Machine
end

