-- ==== Sys2Proof/Machine/Halt.lean ====
section
/-! DEFINITION. HLT (44_halt.md). -/
namespace Sys2Proof.Machine

/-- `HLT`: `status <- Halted`; pc keeps the address of the HLT Word, because a halting instruction is not advanced past
(R120, 90_conflicts.md C6). -/
def execHlt (s : State) : Host.Outcome State Fault Refusal :=
  .next (s.halt.advance .hlt)

end Sys2Proof.Machine
end

