-- ==== Sys2Proof/Machine/LoadImmediate.lean ====
section
/-! DEFINITION. LDI (41_load_immediate.md). -/
namespace Sys2Proof.Machine

/-- `LDI Rr, imm`: `x[r] <- imm; pc <- pc + 3`, or an OutOfBounds fault when r ≥ NUM_REGS (R100). -/
def execLdi (r imm : Word) (s : State) : Host.Outcome State Fault Refusal :=
  match s.checkRegs (Instr.ldi r imm).regOperands with
  | some f => .next (s.raise f)
  | none => .next ((s.writeReg r.toNat imm).advance .ldi)

end Sys2Proof.Machine
end

