-- ==== Sys2Proof/Machine/Output.lean ====
section
/-! DEFINITION. PRN and the output port (42_output.md). -/
namespace Sys2Proof.Machine

/-- `PRN Rr`: `Emit(x[r]); pc <- pc + 2`, or an OutOfBounds fault when r ≥ NUM_REGS, and then nothing is emitted (R105). The
emit itself never fails (R106). -/
def execPrn (r : Word) (s : State) : Host.Outcome State Fault Refusal :=
  match s.checkRegs (Instr.prn r).regOperands with
  | some f => .next (s.raise f)
  | none => .next ((s.emit (s.readReg r.toNat)).advance .prn)

/-- A hexadecimal digit in the sink's letter case. -/
def hexDigit : HexCase → Nat → Char
  | .lower, d => ['0', '1', '2', '3', '4', '5', '6', '7', '8', '9', 'a', 'b', 'c', 'd', 'e', 'f'].getD d '0'
  | .upper, d => ['0', '1', '2', '3', '4', '5', '6', '7', '8', '9', 'A', 'B', 'C', 'D', 'E', 'F'].getD d '0'

/-- The reference sink's rendering of an event: zero-padded hexadecimal, ceil(8/4) = 2 digits (R107). It is outside the
CORE: no step uses it (assumption log 12). -/
def renderWord (c : HexCase) (w : Word) : List Char :=
  ['0', 'x', hexDigit c (w.toNat / 16), hexDigit c (w.toNat % 16)]

end Sys2Proof.Machine
end

