-- ==== Sys2Proof/Machine/Dispatch.lean ====
section
/-! DEFINITION. Execute (40_cycle.md R83 to R85): the dispatch on the decoded instruction, one arm per constructor. -/
namespace Sys2Proof.Machine

/-- The effect of a decoded instruction: the register-index check, the effect and the pc advance (40_cycle.md R83, R84,
R85). It is enabled only in status Running, which `transition` checks (assumption log 7). -/
def exec (i : Instr) (s : State) : Host.Outcome State Fault Refusal :=
  match i with
  | .hlt => Sys2Proof.Machine.execHlt s
  | .prn r => Sys2Proof.Machine.execPrn r s
  | .ldi r imm => Sys2Proof.Machine.execLdi r imm s
  | .add ra rb => Sys2Proof.Machine.execAdd ra rb s

end Sys2Proof.Machine
end

