-- ==== Sys2Proof/WellFormed.lean ====
section
/-! DEFINITION. What is well formed: an instruction (always: 30_encoding.md R64), an opcode map (00_scope.md R11)
and a set of construction parameters (R8 to R10). -/
namespace Sys2Proof

/-- Every decoded instruction is well formed: "Decode places no constraint on an operand Word. Any value 0 to 2^N − 1 is
a well-formed operand." (30_encoding.md R64). An operand that is a Word is in that range by its type, so no check is left. -/
def Instr.wellFormed : Instr → Bool
  | .hlt => true
  | .prn _ => true
  | .ldi _ _ => true
  | .add _ _ => true

/-- An admissible OPCODE_MAP: four distinct values, each different from 0xFF, each with bits [7:6] equal to its operand
count (00_scope.md R11). -/
abbrev OpcodeMap.WellFormed (m : OpcodeMap) : Prop :=
  [m.hlt, m.prn, m.ldi, m.add].Nodup ∧
  (∀ w ∈ [m.hlt, m.prn, m.ldi, m.add], w ≠ 0xFF#8) ∧
  countField m.hlt = Mnemonic.hlt.operandCount ∧ countField m.prn = Mnemonic.prn.operandCount ∧
  countField m.ldi = Mnemonic.ldi.operandCount ∧ countField m.add = Mnemonic.add.operandCount

/-- Admissible construction parameters: 1 ≤ MEM_LEN ≤ 2^N (00_scope.md R8), 1 ≤ NUM_REGS ≤ 2^N (R9), any ENTRY (R10)
and an admissible map (R11). -/
abbrev Config.WellFormed (c : Config) : Prop :=
  1 ≤ c.memLen ∧ c.memLen ≤ 256 ∧ 1 ≤ c.numRegs ∧ c.numRegs ≤ 256 ∧ c.opcodeMap.WellFormed

end Sys2Proof
end

