-- ==== Sys2Proof/Decode.lean ====
section
/-! DEFINITION. The decoder, the encoder and the assembler forms (30_encoding.md). The decoder is total on any list of Words
and refuses by name. -/
namespace Sys2Proof

/-- The opcode Word of a mnemonic in a map (00_scope.md R11). -/
def OpcodeMap.opcode (m : OpcodeMap) : Mnemonic → Word
  | .hlt => m.hlt
  | .prn => m.prn
  | .ldi => m.ldi
  | .add => m.add

/-- Decode compares the whole opcode Word with the four values of the map (30_encoding.md R63); no other Word has a
decode rule (R67). For a map with equal values, which 00_scope.md R11 excludes, the first match wins (assumption log 9). -/
def decodeOpcode (m : OpcodeMap) (w : Word) : Option Mnemonic :=
  if w = m.hlt then some .hlt
  else if w = m.prn then some .prn
  else if w = m.ldi then some .ldi
  else if w = m.add then some .add
  else none

/-- Why a list of Words is no instruction. -/
inductive DecodeError where
  /-- There is no opcode Word. -/
  | noOpcode
  /-- The opcode "has no decode rule" (30_encoding.md R63). -/
  | invalidOpcode (opcode : Word)
  /-- Operand j of a valid opcode is missing. -/
  | missingOperand (j : Nat)
deriving DecidableEq, Repr

/-- Take the operands of a valid opcode off a list of Words, in ascending order (30_encoding.md R60, R64). -/
def decodeOperands : Mnemonic → List Word → Except DecodeError (Instr × List Word)
  | .hlt, ws => .ok (.hlt, ws)
  | .prn, r :: ws => .ok (.prn r, ws)
  | .prn, [] => .error (.missingOperand 1)
  | .ldi, r :: imm :: ws => .ok (.ldi r imm, ws)
  | .ldi, [_] => .error (.missingOperand 2)
  | .ldi, [] => .error (.missingOperand 1)
  | .add, ra :: rb :: ws => .ok (.add ra rb, ws)
  | .add, [_] => .error (.missingOperand 2)
  | .add, [] => .error (.missingOperand 1)

/-- Take one instruction off a list of Words: the opcode is decoded before any operand is looked at (30_encoding.md R63,
90_conflicts.md C1). -/
def decode (m : OpcodeMap) : List Word → Except DecodeError (Instr × List Word)
  | [] => .error .noOpcode
  | w :: ws =>
    match decodeOpcode m w with
    | none => .error (.invalidOpcode w)
    | some op => decodeOperands op ws

/-- The Words of an instruction, in address order: the opcode, then the operands (30_encoding.md R60, R66). -/
def encode (m : OpcodeMap) (i : Instr) : List Word :=
  m.opcode i.mnemonic :: i.operands

/-- The Words of a sequence of instructions, "packed with no padding" (20_memory.md R47). -/
def encodeProgram (m : OpcodeMap) : List Instr → List Word
  | [] => []
  | i :: is => encode m i ++ encodeProgram m is

/-- Decode at most `fuel` instructions from a list of Words, up to its end. -/
def decodeProgram (m : OpcodeMap) : Nat → List Word → Except DecodeError (List Instr)
  | _, [] => .ok []
  | 0, _ :: _ => .ok []
  | fuel + 1, w :: ws =>
    match decode m (w :: ws) with
    | .error e => .error e
    | .ok (i, rest) =>
      match decodeProgram m fuel rest with
      | .error e => .error e
      | .ok is => .ok (i :: is)

/-- The three Words (the longest instruction) an instruction of the opcode table is laid out as: word j is bits 8j+7 to 8j
of its bits, the first word at the lowest address, every bit at or above `nbits` zero. -/
def tableWords (nbits w : Nat) : List Word :=
  [BitVec.ofNat 8 (w % 2 ^ nbits), BitVec.ofNat 8 (w % 2 ^ nbits / 256), BitVec.ofNat 8 (w % 2 ^ nbits / 65536)]

/-- What the decoder reads, under the map of 30_encoding.md R66, from an instruction whose bits are numbered as
spec/opcode_table.json numbers them. -/
def decodeTableWord (nbits w : Nat) : Option Instr :=
  match decode OpcodeMap.base (tableWords nbits w) with
  | .ok (i, _) => some i
  | .error _ => none

/-- One item of the source's list notation for a program (30_encoding.md R68). -/
inductive AsmItem where
  /-- A mnemonic, which stands for its opcode. -/
  | mnemonic (m : Mnemonic)
  /-- `Rn`, which stands for the Word n. -/
  | reg (n : Nat)
  /-- An integer, which stands for its masked value. -/
  | int (v : Int)
deriving DecidableEq, Repr

/-- The Word an item stands for (30_encoding.md R68, R69). -/
def AsmItem.word (m : OpcodeMap) : AsmItem → Word
  | .mnemonic op => m.opcode op
  | .reg n => Machine.mask n
  | .int v => Machine.mask v

/-- A program in list notation as its Words in address order (30_encoding.md R68). -/
def assemble (m : OpcodeMap) (items : List AsmItem) : List Word :=
  items.map (AsmItem.word m)

/-- The assembler form of an instruction in list notation (30_encoding.md R68): `LDI Rr, imm`, `PRN Rr`, `ADD Ra, Rb`,
`HLT`. -/
def Instr.asm : Instr → List AsmItem
  | .hlt => [.mnemonic .hlt]
  | .prn r => [.mnemonic .prn, .reg r.toNat]
  | .ldi r imm => [.mnemonic .ldi, .reg r.toNat, .int imm.toNat]
  | .add ra rb => [.mnemonic .add, .reg ra.toNat, .reg rb.toNat]

/-- The assembler text of an instruction (30_encoding.md R68, the immediate in decimal). -/
def Instr.text : Instr → String
  | .hlt => "HLT"
  | .prn r => "PRN R" ++ toString r.toNat
  | .ldi r imm => "LDI R" ++ toString r.toNat ++ ", " ++ toString imm.toNat
  | .add ra rb => "ADD R" ++ toString ra.toNat ++ ", R" ++ toString rb.toNat

end Sys2Proof
end

