-- ==== Sys2Proof/Machine/Fetch.lean ====
section
/-! DEFINITION. Fetching and decoding the instruction at pc (40_cycle.md R81, R82). -/
namespace Sys2Proof.Machine

/-- Read the Word at pc + j; an address outside Memory is an OutOfBounds fault of the given kind with that address. The
address is never wrapped (40_cycle.md R81, R82). -/
def State.fetchWord (s : State) (kind : AccessKind) (j : Nat) : Except FaultRecord Word :=
  match s.memRead ((s.pc + j : Nat) : Int) with
  | .ok w => .ok w
  | .error _ => .error (.outOfBounds kind (s.pc + j))

/-- Fetch the operands of a valid opcode in ascending order; the first out of bounds is the fault, and nothing further is
fetched (40_cycle.md R82). -/
def State.fetchOperands (s : State) : Mnemonic → Except FaultRecord Instr
  | .hlt => .ok .hlt
  | .prn =>
    match s.fetchWord .operandFetch 1 with
    | .error f => .error f
    | .ok r => .ok (.prn r)
  | .ldi =>
    match s.fetchWord .operandFetch 1 with
    | .error f => .error f
    | .ok r =>
      match s.fetchWord .operandFetch 2 with
      | .error f => .error f
      | .ok imm => .ok (.ldi r imm)
  | .add =>
    match s.fetchWord .operandFetch 1 with
    | .error f => .error f
    | .ok ra =>
      match s.fetchWord .operandFetch 2 with
      | .error f => .error f
      | .ok rb => .ok (.add ra rb)

/-- Fetch the opcode and decode it, then fetch its operands (40_cycle.md R81, R82). An opcode with no decode rule raises
InvalidOpcode before any operand fetch (30_encoding.md R63). -/
def State.fetch (s : State) : Except FaultRecord Instr :=
  match s.fetchWord .opcodeFetch 0 with
  | .error f => .error f
  | .ok opcode =>
    match decodeOpcode s.cfg.opcodeMap opcode with
    | none => .error (.invalidOpcode opcode)
    | some op => s.fetchOperands op

/-- The Words of Memory from pc on, at most three (the longest instruction) and none past the end of Memory. -/
def State.window (s : State) : List Word :=
  (List.range (min 3 (s.cfg.memLen - s.pc))).map (fun j => s.mem.get (s.pc + j))

/-- Store Words in successive cells from address `a` up, leaving out any past the end of Memory. -/
def State.place (s : State) : Nat → List Word → State
  | _, [] => s
  | a, w :: ws =>
    match s.memWrite (a : Int) (w.toNat : Int) with
    | .ok s' => s'.place (a + 1) ws
    | .error _ => s

/-- Store an instruction of the opcode table where the next step fetches, and set status to Running, as the host's load and
`run()` do (70_reset_and_hazards.md R165, 40_cycle.md R89; assumption log 6). -/
def State.placeInstruction (s : State) (nbits w : Nat) : State :=
  { s.place s.pc (tableWords nbits w) with status := .running }

end Sys2Proof.Machine
end

