-- ==== Sys2Proof/Machine/Cycle.lean ====
section
/-! DEFINITION. The step of the CORE and its status transitions (40_cycle.md). -/
namespace Sys2Proof.Machine

/-- The step (40_cycle.md R80 to R85, the step in full), enabled in status Running: fetch and decode, then execute; a fault of
the fetch is taken at once. -/
def cycle (s : State) : Host.Outcome State Fault Refusal :=
  match s.fetch with
  | .error f => .next (s.raise f)
  | .ok i => exec i s

/-- What `run()` does first in status Ready: `status <- Running` (40_cycle.md R89). -/
def State.start (s : State) : State := { s with status := .running }

/-- The transitions of 40_cycle.md R87 but reset: `run()` leaves Ready, a step leaves Running, and nothing leaves Halted or
Faulted (DESIGN CHOICE, assumption log 5: in Ready the machine takes the host's `run()`). -/
def transition (s : State) : Host.Outcome State Fault Refusal :=
  match s.status with
  | .ready => .next s.start
  | .running => cycle s
  | .halted => .fault .halted
  | .faulted f => .fault (.faulted f)

end Sys2Proof.Machine
end

