-- ==== Sys2Proof/Machine/Step.lean ====
section
/-! DEFINITION. The step function of the interface, and the placing of an instruction for the host's check. -/
namespace Sys2Proof.Machine

/-- One transition of the machine (40_cycle.md R87). -/
def step (s : State) : Host.Outcome State Fault Refusal := transition s

/-- The state with an instruction of the opcode table placed where the next step fetches, in status Running (assumption
log 6). -/
def State.withFetchWord (s : State) (nbits w : Nat) : State := s.placeInstruction nbits w

end Sys2Proof.Machine
end

