-- ==== Sys2Proof/Machine/HostActions.lean ====
section
/-! DEFINITION. The host interface (70_reset_and_hazards.md R165, R166, R175; 40_cycle.md R88, R89; 60_exceptions.md R152):
the actions the host makes between steps. They are no part of `step`. -/
namespace Sys2Proof.Machine

/-- The read-only snapshot (60_exceptions.md R152): pc, sp, fl, the full contents of Memory, the registers, status with its
fault record, and `out`. -/
structure Snapshot where
  pc     : Nat
  sp     : Word
  fl     : Word
  memory : List Word
  regs   : List Word
  status : Status
  out    : List Word
deriving DecidableEq, Repr

/-- What a host action answers to the host. -/
inductive HostReply where
  /-- The action was made. -/
  | done
  /-- `OutOfBounds` returned to the host: no fault of the engine (R165, R166). -/
  | outOfBounds (index : Int)
  /-- The snapshot taken (60_exceptions.md R152). -/
  | snapshot (view : Snapshot)
deriving DecidableEq, Repr

/-- The host's actions (70_reset_and_hazards.md R175). Receiving an output event is not one: the event is the Word PRN appends
to `out`. -/
inductive HostAction where
  | reset
  | load (program : List Int) (start : Int)
  | preset (i v : Int)
  | run
  | snapshot
deriving DecidableEq, Repr

/-- Reset: every piece of state to its reset value, the parameters kept (R160, R161). -/
def hostReset (s : State) : State := State.construct s.cfg

/-- `load(program, start)` (R165): one masked MemWrite per value at successive addresses. The first address out of range stops
the load with OutOfBounds to the host; the earlier writes remain and status is unchanged. -/
def hostLoad (s : State) : List Int → Int → HostReply × State
  | [], _ => (.done, s)
  | v :: vs, addr =>
    match s.memWrite addr v with
    | .error e => (.outOfBounds e.address, s)
    | .ok s' => hostLoad s' vs (addr + 1)

/-- `preset(i, v)` (R166): `x[i] <- mask_N(v)` for a valid i; for any other i, OutOfBounds to the host and nothing written. -/
def hostPreset (s : State) (i v : Int) : HostReply × State :=
  if 0 ≤ i ∧ i < s.cfg.numRegs then (.done, s.writeReg i.toNat (mask v)) else (.outOfBounds i, s)

/-- Steps performed one after another while status is Running (40_cycle.md R89), at most `fuel` of them. Running out of fuel
is "not yet ended" (60_exceptions.md R132): the state is then still Running. -/
def runLoop : Nat → State → State
  | 0, s => s
  | fuel + 1, s =>
    if s.status = .running then
      match step s with
      | .next t => runLoop fuel t
      | .fault _ => s
      | .refused _ => s
    else s

/-- The number of steps within which a run from this pc ends: MEM_LEN − pc + 1, or 1 when pc is past Memory
(40_cycle.md R92, stated there for pc = ENTRY). -/
def State.runBound (s : State) : Nat := s.cfg.memLen - s.pc + 1

/-- `run()` in status Ready: set Running, then step to a terminal status (40_cycle.md R89). -/
def hostRun (s : State) : State := runLoop s.runBound s.start

/-- The full contents of Memory, cell 0 first (60_exceptions.md R152). -/
def State.memoryContents (s : State) : List Word := (List.range s.cfg.memLen).map (fun a => s.mem.get a)

/-- The snapshot of a state (60_exceptions.md R152). -/
def State.view (s : State) : Snapshot :=
  { pc := s.pc, sp := s.sp, fl := s.fl, memory := s.memoryContents, regs := s.regs, status := s.status, out := s.out }

/-- The table of host actions (70_reset_and_hazards.md R175): the reply and the state after, or none where the table gives the
host no move in that status. -/
def hostAct (a : HostAction) (s : State) : Option (HostReply × State) :=
  match a, s.status with
  | .reset, .running => none
  | .reset, _ => some (.done, hostReset s)
  | .load program start, .ready => some (hostLoad s program start)
  | .load _ _, _ => none
  | .preset i v, .ready => some (hostPreset s i v)
  | .preset _ _, _ => none
  | .run, .ready => some (.done, hostRun s)
  | .run, .running => none
  | .run, .halted => some (.done, s)
  | .run, .faulted _ => some (.done, s)
  | .snapshot, .running => none
  | .snapshot, _ => some (.snapshot s.view, s)

end Sys2Proof.Machine
end

