-- ==== Sys2Proof/Safety.lean ====
section
/-! DEFINITION. What claims are stated in: the terminal statuses, the first fault whose condition holds (60_exceptions.md R133),
and the invariant every reachable state meets. -/
namespace Sys2Proof.Machine

/-- Halted or Faulted: no step is enabled, and only reset leaves (40_cycle.md R87). -/
def Status.terminal : Status → Bool
  | .ready => false
  | .running => false
  | .halted => true
  | .faulted _ => true

/-- k transitions of the machine, stopping at the first that answers no next state. -/
def runSteps : Nat → State → Host.Outcome State Fault Refusal
  | 0, s => .next s
  | k + 1, s =>
    match step s with
    | .next t => runSteps k t
    | .fault f => .fault f
    | .refused r => .refused r

/-- The Word in the cell at pc + j: the opcode for j = 0, operand j for j ≥ 1. -/
def State.codeWord (s : State) (j : Nat) : Word := s.mem.get (s.pc + j)

/-- The first fault whose condition holds, as 60_exceptions.md R133 lists the conditions: the opcode fetch, the opcode, the
operand fetch of smallest j, the first invalid register operand. -/
def State.firstFault (s : State) : Option FaultRecord :=
  if s.cfg.memLen ≤ s.pc then some (.outOfBounds .opcodeFetch s.pc)
  else
    match decodeOpcode s.cfg.opcodeMap (s.codeWord 0) with
    | none => some (.invalidOpcode (s.codeWord 0))
    | some m =>
      match (List.range' 1 m.operandCount).find? (fun j => decide (s.cfg.memLen ≤ s.pc + j)) with
      | some j => some (.outOfBounds .operandFetch (s.pc + j))
      | none =>
        match (regWords m ((List.range' 1 m.operandCount).map s.codeWord)).find?
            (fun w => decide (s.cfg.numRegs ≤ w.toNat)) with
        | some w => some (.outOfBounds .registerIndex w.toNat)
        | none => none

/-- The invariant of the machine: what holds at reset, and after every step and every host action. -/
structure State.Inv (s : State) : Prop where
  /-- The parameters are admissible (00_scope.md R8 to R11). -/
  cfg_wf     : s.cfg.WellFormed
  /-- The register file has NUM_REGS registers (10_state.md R19). -/
  regs_len   : s.regs.length = s.cfg.numRegs
  /-- Memory is in its canonical form. -/
  mem_wf     : s.mem.wf = true
  /-- Memory has no cell outside [0, MEM_LEN) (10_state.md R29). -/
  mem_below  : s.mem.below s.cfg.memLen = true
  /-- pc lies in [0, max(MEM_LEN, ENTRY)] (10_state.md R23). -/
  pc_le      : s.pc ≤ max s.cfg.memLen s.cfg.entry
  /-- sp holds its reset value (10_state.md R24: it "changes only at reset"). -/
  sp_reset   : s.sp = s.cfg.resetSp
  /-- fl holds its reset value (10_state.md R25). -/
  fl_reset   : s.fl = s.cfg.resetFl
  /-- An engine that has not been run has pc = ENTRY (70_reset_and_hazards.md R162, R166) and has emitted nothing. -/
  ready_boot : s.status = .ready → s.pc = s.cfg.entry ∧ s.out = []
  /-- A halted engine's pc is the address of an HLT Word (44_halt.md R120, decision D19; assumption log 11). -/
  halted_pc  : s.status = .halted → s.pc < s.cfg.memLen ∧ s.codeWord 0 = s.cfg.opcodeMap.hlt
  /-- A fault record names the first fault of the instruction at pc (60_exceptions.md R133, R135). -/
  fault_just : ∀ f, s.status = .faulted f → s.firstFault = some f

end Sys2Proof.Machine
end

