-- ==== Sys2Proof/Certificates/Slice0/Obligations.lean ====
section
/-! DEFINITION. The statements about the model, from the numbered rules of spec/. Each docstring names the rule or the section a
statement formalises; where a clause rests on a decision the spec marks as its own (92_eei_decisions.md) or on a choice of the
model (assumption log), the docstring says so. -/

open Sys2Proof Sys2Proof.Machine

/-- 30_encoding.md §1 to §3 (R60, R63, R64): for every admissible opcode map, a list of Words decodes to an instruction exactly when
it begins with that instruction's encoding, and the rest is left over. -/
def Obligations.DecodeInvertsEncode : Prop :=
  ∀ (m : OpcodeMap), m.WellFormed → ∀ (i : Instr) (ws rest : List Word),
    decode m ws = .ok (i, rest) ↔ ws = encode m i ++ rest

/-- 20_memory.md §2 (R46, R47, decisions D9, D10): instructions packed with no padding decode back one by one, for every admissible map. -/
def Obligations.PackedProgramDecodesBack : Prop :=
  ∀ (m : OpcodeMap), m.WellFormed → ∀ (is : List Instr) (fuel : Nat), is.length ≤ fuel →
    decodeProgram m fuel (encodeProgram m is) = .ok is

/-- 30_encoding.md §2, §4 (R63, R67): under the map of R66 (whose values are the spec's decision D7) a Word is refused as an opcode exactly when it is none of the four values,
whatever follows it, and 252 Words are. -/
def Obligations.OtherOpcodesAreInvalid : Prop :=
  (∀ (w : Word) (rest : List Word),
    decode OpcodeMap.base (w :: rest) = .error (.invalidOpcode w) ↔
      (w ≠ 0x01#8 ∧ w ≠ 0x47#8 ∧ w ≠ 0x82#8 ∧ w ≠ 0xA0#8)) ∧
  ((List.range 256).filter (fun n => (decodeOpcode OpcodeMap.base (BitVec.ofNat 8 n)).isNone)).length = 252

/-- 30_encoding.md §5 (the example encodings) and 95_test_vectors.md §3.3: the words written out from the spec's tables decode to
what the tables say (the opcode values are the spec's decision D7). -/
def Obligations.SpecWordsDecode : Prop :=
  decode OpcodeMap.base [0b10000010#8, 0x00#8, 0x08#8] = .ok (.ldi 0 8, []) ∧
  decode OpcodeMap.base [0b01000111#8, 0x00#8] = .ok (.prn 0, []) ∧
  decode OpcodeMap.base [0b10100000#8, 0x00#8, 0x01#8] = .ok (.add 0 1, []) ∧
  decode OpcodeMap.base [0b00000001#8] = .ok (.hlt, []) ∧
  decode OpcodeMap.base [0xC0#8, 0#8, 0#8, 0#8] = .error (.invalidOpcode 0xC0#8)

/-- 30_encoding.md §5 (R68, R69, decision D29): the list notation of an instruction assembles to its encoding, an immediate integer is stored masked
(`LDI R0, 260` stores 4), and every assembled instruction decodes back under every admissible map. -/
def Obligations.AssemblerAgreesWithDecoder : Prop :=
  (∀ (m : OpcodeMap), m.WellFormed → ∀ (i : Instr) (rest : List Word),
    decode m (assemble m i.asm ++ rest) = .ok (i, rest)) ∧
  (∀ (m : OpcodeMap) (n : Nat) (v : Int),
    assemble m [.mnemonic .ldi, .reg n, .int v] = assemble m [.mnemonic .ldi, .reg n, .int (v + 256)])

/-- 10_state.md R18, whole: masking is idempotent, its result is in [0, 2^8 − 1], a Word is its own mask, and the mask of v is the
unique integer in [0, 2^8) congruent to v modulo 2^8. -/
def Obligations.MaskIsReductionModuloTwoToTheEight : Prop :=
  (∀ v : Int, mask ((mask v).toNat : Int) = mask v ∧ 0 ≤ ((mask v).toNat : Int) ∧ ((mask v).toNat : Int) ≤ 2 ^ 8 - 1) ∧
  (∀ w : Word, mask (w.toNat : Int) = w) ∧
  (∀ v n : Int, (0 ≤ n ∧ n < 2 ^ 8 ∧ n % 2 ^ 8 = v % 2 ^ 8) ↔ n = ((mask v).toNat : Int))

/-- 43_alu.md R112, whole: ADD's result is the exact sum masked to 8 bits with the empty flag-effect list, so fl is not written; the
carry is discarded and recorded nowhere (two pairs of operands whose sums agree modulo 2^8 give the same answer). -/
def Obligations.AluAddIsMaskedSumWithoutFlags : Prop :=
  (∀ a b : Word, a.toNat + b.toNat ≤ 2 ^ 9 - 2 ∧
    ∃ res : Word, alu .add a b = .ok (res, []) ∧ res = mask ((a.toNat + b.toNat : Nat) : Int) ∧
      res.toNat = (a.toNat + b.toNat) % 2 ^ 8) ∧
  (∀ a b c d : Word, alu .add a b = alu .add c d ↔ (a.toNat + b.toNat) % 2 ^ 8 = (c.toNat + d.toNat) % 2 ^ 8) ∧
  (∀ (ra rb : Word) (s t : State), exec (.add ra rb) s = .next t → t.fl = s.fl)

/-- 43_alu.md §1 (R111, decision D28) and 60_exceptions.md §1 (R130, R131, decision D18): a tag other than ADD fails with UnsupportedOperation, and no
step of a running engine takes the fault UnsupportedOperation or AlreadyTerminated. -/
def Obligations.UnsupportedOperationIsUnreachable : Prop :=
  (∀ (op : AluTag) (a b : Word), op ≠ .add ↔ alu op a b = .error (.unsupportedOperation op)) ∧
  (∀ s t : State, s.status = .running → step s = .next t →
    t.status ≠ .faulted .alreadyTerminated ∧ ∀ op, t.status ≠ .faulted (.unsupportedOperation op))

/-- 43_alu.md §1 (R110): a flag effect writes its own bit of fl and no other (the form of a flag effect is the model's choice,
assumption log 10). -/
def Obligations.FlagEffectWritesItsOwnBit : Prop :=
  ∀ (fl : Word) (e : FlagEffect) (j : Fin 8),
    (writeFlag fl e).getLsbD j.val = if j = e.bit then e.value else fl.getLsbD j.val

/-- 20_memory.md R41, R42, R44 and R45, whole: inside [0, MEM_LEN) a read returns the Word stored, a write stores the mask and changes
nothing else, and the next read there returns it; outside, a write fails with the address and writes nothing (and a read fails
with the address, R43). The premise is the memory's canonical form (StepKeepsInvariant, ResetMeetsInvariant). -/
def Obligations.MemoryReadsBackWhatWasWritten : Prop :=
  ∀ (s : State) (a v : Int), s.mem.wf = true →
    ((0 ≤ a ∧ a < s.cfg.memLen) →
      s.memRead a = .ok (s.mem.get a.toNat) ∧
      ∃ t, s.memWrite a v = .ok t ∧ t.memRead a = .ok (mask v) ∧
        (∀ b, b ≠ a → t.memRead b = s.memRead b) ∧ t = { s with mem := t.mem }) ∧
    ((a < 0 ∨ (s.cfg.memLen : Int) ≤ a) →
      s.memRead a = .error ⟨a⟩ ∧ s.memWrite a v = .error ⟨a⟩)

/-- 10_state.md §8 (R29): two memories in canonical form that read alike at every address are the same data. -/
def Obligations.MemoryFormIsCanonical : Prop :=
  ∀ m n : Memory, m.wf = true → n.wf = true → (∀ a, m.get a = n.get a) → m = n

/-- 10_state.md §2 (R19, R20): no register is hardwired and none is an alias of another: a valid register reads back the Word
written, every other register is unchanged. -/
def Obligations.RegistersAreIndependent : Prop :=
  ∀ (s : State) (i : Nat) (v : Word), s.regs.length = s.cfg.numRegs → i < s.cfg.numRegs →
    (s.writeReg i v).readReg i = v ∧ ∀ j, j ≠ i → (s.writeReg i v).readReg j = s.readReg j

/-- 41_load_immediate.md, the effect of LDI: for a valid register it completes, x[r] is the immediate, every other register and
everything else but pc is unchanged, and pc advances by 3. -/
def Obligations.LdiWritesImmediate : Prop :=
  ∀ (s : State) (r imm : Word), s.regs.length = s.cfg.numRegs → r.toNat < s.cfg.numRegs →
    ∃ t, exec (.ldi r imm) s = .next t ∧ t.readReg r.toNat = imm ∧
      (∀ q, q ≠ r.toNat → t.readReg q = s.readReg q) ∧ t.regs.length = s.regs.length ∧
      t = { s with regs := t.regs, pc := s.pc + 3 }

/-- 42_output.md, the effect of PRN: for a valid register it completes, x[r] is appended to the end of out, pc advances by 2,
and everything else is unchanged. -/
def Obligations.PrnEmitsRegister : Prop :=
  ∀ (s : State) (r : Word), r.toNat < s.cfg.numRegs →
    exec (.prn r) s = .next { s with out := s.out ++ [s.readReg r.toNat], pc := s.pc + 2 }

/-- 43_alu.md, the effect of ADD: for valid registers (also when ra = rb) it completes, x[ra] is the sum of both old values modulo
2^8, every other register and everything else but pc is unchanged (fl too), and pc advances by 3. -/
def Obligations.AddWritesSumModulo : Prop :=
  ∀ (s : State) (ra rb : Word), s.regs.length = s.cfg.numRegs → ra.toNat < s.cfg.numRegs → rb.toNat < s.cfg.numRegs →
    ∃ t, exec (.add ra rb) s = .next t ∧
      (t.readReg ra.toNat).toNat = ((s.readReg ra.toNat).toNat + (s.readReg rb.toNat).toNat) % 2 ^ 8 ∧
      (∀ q, q ≠ ra.toNat → t.readReg q = s.readReg q) ∧ t.regs.length = s.regs.length ∧
      t = { s with regs := t.regs, pc := s.pc + 3 }

/-- 44_halt.md, the effect of HLT: it completes in every state, status becomes Halted and nothing else changes; pc keeps the address
of the HLT Word (the spec's decision D19). -/
def Obligations.HltHaltsInPlace : Prop :=
  ∀ s : State, exec .hlt s = .next { s with status := .halted }

/-- 10_state.md §2 (R21) and 40_cycle.md §1 (R83, decision D25): LDI, PRN and ADD with an invalid register index take OutOfBounds of kind RegisterIndex
for the first invalid operand, and nothing but status changes. -/
def Obligations.InvalidRegisterIndexFaults : Prop :=
  ∀ (s : State) (ra rb imm : Word),
    (s.cfg.numRegs ≤ ra.toNat →
      exec (.ldi ra imm) s = .next { s with status := .faulted (.outOfBounds .registerIndex ra.toNat) } ∧
      exec (.prn ra) s = .next { s with status := .faulted (.outOfBounds .registerIndex ra.toNat) } ∧
      exec (.add ra rb) s = .next { s with status := .faulted (.outOfBounds .registerIndex ra.toNat) }) ∧
    (ra.toNat < s.cfg.numRegs → s.cfg.numRegs ≤ rb.toNat →
      exec (.add ra rb) s = .next { s with status := .faulted (.outOfBounds .registerIndex rb.toNat) })

/-- The frame of every instruction (41 to 44, "Writes" and "Flags"; 20_memory.md §4, R51): when exec answers a next state, the parameters, sp, fl
and every cell of Memory are unchanged; the registers are unchanged but LDI's r and ADD's ra; out is unchanged but for PRN's one
event; status is unchanged but for HLT and a fault. pc may change. -/
def Obligations.InstructionFrame : Prop :=
  ∀ (i : Instr) (s t : State), exec i s = .next t →
    t.cfg = s.cfg ∧ t.sp = s.sp ∧ t.fl = s.fl ∧ (∀ a, t.memRead a = s.memRead a) ∧
    t.regs.length = s.regs.length ∧
    (∀ q, (∀ r imm, i = .ldi r imm → q ≠ r.toNat) → (∀ ra rb, i = .add ra rb → q ≠ ra.toNat) →
      t.readReg q = s.readReg q) ∧
    (t.out = s.out ∨ ∃ r, i = .prn r ∧ t.out = s.out ++ [s.readReg r.toNat]) ∧
    (t.status = s.status ∨ (i = .hlt ∧ t.status = .halted) ∨ ∃ f, t.status = .faulted f)

/-- 30_encoding.md §3 (R65), 40_cycle.md §1 (R85, R86) and 44_halt.md (R120): the attribute table says what execution does. An instruction that does not
write back leaves the register file alone; one that does not halt never enters Halted; one that halts enters Halted with pc kept (that
pc is kept is the spec's own decision D19, assumption log 11); and one that neither halts nor sets pc itself,
when a running engine stays Running, has moved pc on by 1 + k, k its operand count. -/
def Obligations.AttributesGovernExecution : Prop :=
  ∀ (i : Instr) (s t : State), s.status = .running → exec i s = .next t →
    (i.mnemonic.attributes.writesBack = false → t.regs = s.regs) ∧
    (i.mnemonic.attributes.halts = false → t.status ≠ .halted) ∧
    (i.mnemonic.attributes.halts = true → t.status = .halted ∧ t.pc = s.pc) ∧
    (i.mnemonic.attributes.halts = false → i.mnemonic.attributes.setsPc = false → t.status = .running →
      t.pc = s.pc + 1 + i.mnemonic.operandCount)

/-- No instruction and no status but the terminal ones stops the machine: exec always answers a next state, step answers one
in Ready and Running, and nothing is refused (40_cycle.md §2, R87, R90; Ready's step is the host's run(), assumption log 5). -/
def Obligations.OnlyTerminalStatusesStop : Prop :=
  (∀ (i : Instr) (s : State), ∃ t, exec i s = .next t) ∧
  (∀ s : State, (∃ t, step s = .next t) ↔ s.status.terminal = false) ∧
  (∀ (s : State) (r : Refusal), step s ≠ .refused r)

/-- 40_cycle.md §1 (R81 to R84): in status Running, when the Words at pc decode to an instruction, step is exec of that instruction; step
adds nothing around it (pc is moved by exec). -/
def Obligations.StepRunsDecodedInstruction : Prop :=
  ∀ (s : State) (i : Instr) (rest : List Word), s.status = .running →
    decode s.cfg.opcodeMap s.window = .ok (i, rest) → step s = exec i s

/-- 41_load_immediate.md R100, whole, as a step under the map of 30_encoding.md R66: the encoding, the exceptions in their order with
nothing but status written, and otherwise x[r] <- imm and pc <- pc + 3 with nothing else changed. -/
def Obligations.LdiStepInFull : Prop :=
  ∀ s : State, s.status = .running → s.cfg.opcodeMap = OpcodeMap.base →
    (s.cfg.memLen ≤ s.pc → step s = .next { s with status := .faulted (.outOfBounds .opcodeFetch s.pc) }) ∧
    (s.pc < s.cfg.memLen → s.codeWord 0 = 0x82#8 →
      step s =
        if s.cfg.memLen ≤ s.pc + 1 then .next { s with status := .faulted (.outOfBounds .operandFetch (s.pc + 1)) }
        else if s.cfg.memLen ≤ s.pc + 2 then .next { s with status := .faulted (.outOfBounds .operandFetch (s.pc + 2)) }
        else if s.cfg.numRegs ≤ (s.codeWord 1).toNat then
          .next { s with status := .faulted (.outOfBounds .registerIndex (s.codeWord 1).toNat) }
        else .next { s with regs := s.regs.set (s.codeWord 1).toNat (s.codeWord 2), pc := s.pc + 3 })

/-- 42_output.md R105, whole, as a step under the map of 30_encoding.md R66: the encoding, the exceptions in their order with nothing
but status written and nothing emitted, and otherwise x[r] appended to out and pc <- pc + 2. -/
def Obligations.PrnStepInFull : Prop :=
  ∀ s : State, s.status = .running → s.cfg.opcodeMap = OpcodeMap.base →
    (s.cfg.memLen ≤ s.pc → step s = .next { s with status := .faulted (.outOfBounds .opcodeFetch s.pc) }) ∧
    (s.pc < s.cfg.memLen → s.codeWord 0 = 0x47#8 →
      step s =
        if s.cfg.memLen ≤ s.pc + 1 then .next { s with status := .faulted (.outOfBounds .operandFetch (s.pc + 1)) }
        else if s.cfg.numRegs ≤ (s.codeWord 1).toNat then
          .next { s with status := .faulted (.outOfBounds .registerIndex (s.codeWord 1).toNat) }
        else .next { s with out := s.out ++ [s.readReg (s.codeWord 1).toNat], pc := s.pc + 2 })

/-- 43_alu.md R113, whole, as a step under the map of 30_encoding.md R66: the encoding, the exceptions in their order with nothing but
status written, and otherwise x[ra] <- mask(x[ra] + x[rb]), both read before the write, and pc <- pc + 3, fl unchanged. -/
def Obligations.AddStepInFull : Prop :=
  ∀ s : State, s.status = .running → s.cfg.opcodeMap = OpcodeMap.base →
    (s.cfg.memLen ≤ s.pc → step s = .next { s with status := .faulted (.outOfBounds .opcodeFetch s.pc) }) ∧
    (s.pc < s.cfg.memLen → s.codeWord 0 = 0xA0#8 →
      step s =
        if s.cfg.memLen ≤ s.pc + 1 then .next { s with status := .faulted (.outOfBounds .operandFetch (s.pc + 1)) }
        else if s.cfg.memLen ≤ s.pc + 2 then .next { s with status := .faulted (.outOfBounds .operandFetch (s.pc + 2)) }
        else if s.cfg.numRegs ≤ (s.codeWord 1).toNat then
          .next { s with status := .faulted (.outOfBounds .registerIndex (s.codeWord 1).toNat) }
        else if s.cfg.numRegs ≤ (s.codeWord 2).toNat then
          .next { s with status := .faulted (.outOfBounds .registerIndex (s.codeWord 2).toNat) }
        else .next { s with
          regs := s.regs.set (s.codeWord 1).toNat
            (mask ((s.readReg (s.codeWord 1).toNat).toNat + (s.readReg (s.codeWord 2).toNat).toNat : Int)),
          pc := s.pc + 3 })

/-- 44_halt.md (R120, whose pc is the spec's decision D19), as a step under the map of 30_encoding.md R66: only the opcode fetch can fault, and otherwise status
becomes Halted and nothing else changes, whatever follows in Memory and also in its last cell. -/
def Obligations.HltStepInFull : Prop :=
  ∀ s : State, s.status = .running → s.cfg.opcodeMap = OpcodeMap.base →
    (s.cfg.memLen ≤ s.pc → step s = .next { s with status := .faulted (.outOfBounds .opcodeFetch s.pc) }) ∧
    (s.pc < s.cfg.memLen → s.codeWord 0 = 0x01#8 → step s = .next { s with status := .halted })

/-- 60_exceptions.md §2 (R133, decision D16) and §3 (R135, decision D26): a step of a running engine takes the first fault whose condition holds, in the order of the spec, and
writes nothing but status; when no condition holds it takes none. -/
def Obligations.StepTakesFirstFault : Prop :=
  ∀ s : State, s.status = .running →
    (∀ f, s.firstFault = some f → step s = .next { s with status := .faulted f }) ∧
    (s.firstFault = none → ∃ t, step s = .next t ∧ ∀ f, t.status ≠ .faulted f)

/-- 60_exceptions.md R134, whole: a step that raises a fault writes status <- Faulted(cause, info) and nothing else, control goes
nowhere, and no further step is enabled. -/
def Obligations.FaultWritesOnlyStatusAndEndsTheRun : Prop :=
  ∀ (s t : State) (f : FaultRecord), s.status = .running → step s = .next t → t.status = .faulted f →
    t = { s with status := .faulted f } ∧ ∀ u, step t ≠ .next u

/-- 40_cycle.md §2 (R87, R89; Ready's step is the host's run(), assumption log 5): Ready goes to Running and nothing else changes;
Running goes to Running, to Halted only at an HLT Word, or to Faulted; reset gives Ready from any status; in Halted and Faulted no
step is enabled and no host action but reset changes the state. -/
def Obligations.StatusTransitionsAreExactlyThese : Prop :=
  (∀ s : State, s.status = .ready → step s = .next { s with status := .running }) ∧
  (∀ s t : State, s.status = .running → step s = .next t →
    t.status = .running ∨ (t.status = .halted ∧ s.codeWord 0 = s.cfg.opcodeMap.hlt) ∨ ∃ f, t.status = .faulted f) ∧
  (∀ s : State, (hostReset s).status = .ready) ∧
  (∀ s : State, s.status.terminal = true →
    (∀ t, step s ≠ .next t) ∧ ∀ a reply t, hostAct a s = some (reply, t) → a = .reset ∨ t = s)

/-- 40_cycle.md §2 (R88, decision D18) and 70_reset_and_hazards.md §4 (R175, decision D22): run() on a terminal engine changes nothing, and while the engine is Running
the host has no move at all; load and preset have a move only in Ready. -/
def Obligations.HostMovesByStatus : Prop :=
  (∀ s : State, s.status.terminal = true → hostAct .run s = some (.done, s)) ∧
  (∀ (a : HostAction) (s : State), hostAct a s = none ↔
    (s.status = .running ∨
      (s.status ≠ .ready ∧ ((∃ p a', a = .load p a') ∨ ∃ i v, a = .preset i v))))

/-- 70_reset_and_hazards.md §2 (R165, decisions D22, D23): the loader writes the masked values at successive addresses up to the first address out
of range, where it stops with OutOfBounds; n values land, the earlier writes remain, every other cell and all other state (status
too) is unchanged. The premise is the memory's canonical form. -/
def Obligations.LoadWritesUpToTheFirstBadAddress : Prop :=
  ∀ (s : State) (program : List Int) (start : Int), s.mem.wf = true →
    let n : Nat := if start < 0 then 0 else min program.length ((s.cfg.memLen : Int) - start).toNat
    let r := hostLoad s program start
    r.1 = (if n = program.length then .done else .outOfBounds (start + n)) ∧
    r.2 = { s with mem := r.2.mem } ∧
    (∀ k, k < n → r.2.memRead (start + k) = .ok (mask (program.getD k 0))) ∧
    (∀ a, (a < start ∨ start + n ≤ a) → r.2.memRead a = s.memRead a)

/-- 70_reset_and_hazards.md §2 (R166, decision D22): a preset of a valid register stores the mask there and changes nothing else; any other index, negative
too, is OutOfBounds to the host and changes nothing. -/
def Obligations.PresetWritesOneRegister : Prop :=
  ∀ (s : State) (i v : Int), s.regs.length = s.cfg.numRegs →
    ((0 ≤ i ∧ i < s.cfg.numRegs) →
      ∃ t, hostPreset s i v = (.done, t) ∧ t.readReg i.toNat = mask v ∧
        (∀ q, q ≠ i.toNat → t.readReg q = s.readReg q) ∧ t = { s with regs := t.regs }) ∧
    ((i < 0 ∨ (s.cfg.numRegs : Int) ≤ i) → hostPreset s i v = (.outOfBounds i, s))

/-- 70_reset_and_hazards.md §1 (R160 to R162): reset from any status other than Running puts every piece of state at its reset value and keeps the
parameters (registers 0, sp = MEM_LEN − 1, fl = 0 and out empty are the spec's decisions D5, D6, D8 and D27). -/
def Obligations.ResetRestoresEveryPieceOfState : Prop :=
  ∀ (s : State), s.cfg.WellFormed → s.status ≠ .running →
    ∃ t, hostAct .reset s = some (.done, t) ∧ t.cfg = s.cfg ∧
      t.regs.length = s.cfg.numRegs ∧ (∀ i, t.readReg i = 0#8) ∧ t.pc = s.cfg.entry ∧
      t.sp.toNat = s.cfg.memLen - 1 ∧ t.fl = 0#8 ∧ t.status = .ready ∧ t.out = [] ∧
      ∀ a : Int, 0 ≤ a → a < s.cfg.memLen → t.memRead a = .ok 0#8

/-- 10_state.md §10 and 00_scope.md §4 (R8 to R10, decisions D2 to D6): the machine after reset with the default parameters. -/
def Obligations.DefaultResetState : Prop :=
  State.reset.regs = List.replicate 8 0#8 ∧ State.reset.pc = 0 ∧ State.reset.sp = 0xFF#8 ∧ State.reset.fl = 0#8 ∧
  State.reset.status = .ready ∧ State.reset.out = [] ∧ State.reset.cfg.memLen = 256 ∧
  ∀ a : Int, State.reset.memRead a = if 0 ≤ a ∧ a ≤ 255 then .ok 0#8 else .error ⟨a⟩

/-- 60_exceptions.md §7 (R152, decision D22): a snapshot shows pc, sp, fl, every cell of Memory, the registers, status and out, and changes nothing. -/
def Obligations.SnapshotShowsAllAndChangesNothing : Prop :=
  ∀ (s t : State) (reply : HostReply), hostAct .snapshot s = some (reply, t) →
    t = s ∧ ∃ v, reply = .snapshot v ∧ v.pc = s.pc ∧ v.sp = s.sp ∧ v.fl = s.fl ∧ v.regs = s.regs ∧
      v.status = s.status ∧ v.out = s.out ∧ v.memory.length = s.cfg.memLen ∧
      ∀ (a : Nat) (w : Word), v.memory[a]? = some w ↔ s.memRead a = .ok w

/-- The invariant of Safety.lean holds at reset, with the default parameters and with every admissible setting. -/
def Obligations.ResetMeetsInvariant : Prop :=
  State.reset.Inv ∧ ∀ c : Config, c.WellFormed → (State.construct c).Inv

/-- The invariant of Safety.lean is kept by every step, from every state that meets it: Memory stays canonical and in range, the
register file keeps its size, pc stays in [0, max(MEM_LEN, ENTRY)] (10_state.md R23), sp and fl keep their reset values (R24, R25; decisions D6, D8), a
halted pc is at an HLT Word (44_halt.md R120; the spec's own decision D19, assumption log 11), and a fault record names the first fault at
pc (60_exceptions.md R133, R135; decisions D16, D26). -/
def Obligations.StepKeepsInvariant : Prop :=
  ∀ s t : State, s.Inv → step s = .next t → t.Inv

/-- The invariant of Safety.lean is kept by every host action that has a move, `run()` to its end included
(70_reset_and_hazards.md §4; decisions as in StepKeepsInvariant, the fuel of run() as in assumption log 14). -/
def Obligations.HostActionsKeepInvariant : Prop :=
  ∀ (a : HostAction) (s t : State) (reply : HostReply), s.Inv → hostAct a s = some (reply, t) → t.Inv

/-- 40_cycle.md §1 (R85, decision D12) and 10_state.md §3 (R23): a step that stays Running moves pc on by 1 + k, by at least 2, exact and not wrapped, to at most
MEM_LEN; a step that halts leaves pc where it was (44_halt.md R120; the spec's own decision D19, assumption log 11), and so does one that
faults (60_exceptions.md R135, decision D26). -/
def Obligations.PcAdvancesByInstructionLength : Prop :=
  ∀ s t : State, s.status = .running → step s = .next t →
    (t.status = .running → ∃ m, decodeOpcode s.cfg.opcodeMap (s.codeWord 0) = some m ∧
      t.pc = s.pc + 1 + m.operandCount ∧ s.pc + 2 ≤ t.pc ∧ t.pc ≤ s.cfg.memLen) ∧
    (t.status ≠ .running → t.pc = s.pc)

/-- 40_cycle.md §2 (R92, which the spec derives): every run ends. From every running state some number of steps, at most MEM_LEN − pc + 1 (and 1 when pc is at
or past MEM_LEN, where the subtraction is 0), leads to a terminal status; there is no loop and no hang. -/
def Obligations.EveryRunEnds : Prop :=
  ∀ s : State, s.status = .running →
    ∃ (k : Nat) (t : State), 1 ≤ k ∧ k ≤ s.cfg.memLen - s.pc + 1 ∧ runSteps k s = .next t ∧ t.status.terminal = true

/-- 40_cycle.md §2 (R89, R92): run() in status Ready returns, in a terminal status, the state the machine's own transitions reach:
the start of the run and then at most MEM_LEN − pc + 1 steps. Counting Ready's transition as the start of the run is the model's choice
(assumption log 5), and the bound, which is also the fuel of run()'s loop, is the one R92 derives (assumption log 14). -/
def Obligations.RunReturnsTheTerminalState : Prop :=
  ∀ s : State, s.status = .ready →
    ∃ t, hostAct .run s = some (.done, t) ∧ t.status.terminal = true ∧
      ∃ k, 1 ≤ k ∧ k ≤ s.cfg.memLen - s.pc + 1 ∧ runSteps (k + 1) s = .next t

/-- 20_memory.md §5 (R55, decision D11), 70_reset_and_hazards.md §1 (R161) and 60_exceptions.md §6 (R140): no step changes Memory, the parameters, sp or fl. -/
def Obligations.MemoryIsConstantDuringARun : Prop :=
  ∀ s t : State, step s = .next t → t.mem = s.mem ∧ t.cfg = s.cfg ∧ t.sp = s.sp ∧ t.fl = s.fl

/-- 10_state.md §4, §5 (R24, R25) and 60_exceptions.md §6 (R140): no instruction reads sp or fl: their values influence nothing a step does. -/
def Obligations.SpAndFlInfluenceNothing : Prop :=
  ∀ (s t : State) (p f : Word), step s = .next t → step { s with sp := p, fl := f } = .next { t with sp := p, fl := f }

/-- 20_memory.md §4 (R51) and 44_halt.md: a step reads no cell of Memory but the Words of the instruction at pc: another value in any
other cell changes nothing the step does. The premise is the memory's canonical form. -/
def Obligations.StepReadsOnlyItsOwnWords : Prop :=
  ∀ (s s' t : State) (m : Mnemonic) (a v : Int), s.mem.wf = true → s.pc < s.cfg.memLen →
    decodeOpcode s.cfg.opcodeMap (s.codeWord 0) = some m →
    (a < s.pc ∨ (s.pc : Int) + 1 + m.operandCount ≤ a) → s.memWrite a v = .ok s' →
    step s = .next t → step s' = .next { t with mem := s'.mem }

/-- 42_output.md §1 (R106) and 10_state.md §7 (R28): a step emits exactly one event, the value of the register, when it completes a PRN, and none
otherwise; out only ever grows at its end. -/
def Obligations.OneEventPerCompletedPrn : Prop :=
  ∀ s t : State, s.status = .running → step s = .next t →
    t.out = (if decodeOpcode s.cfg.opcodeMap (s.codeWord 0) = some .prn ∧ t.status = .running
      then s.out ++ [s.readReg (s.codeWord 1).toNat] else s.out)
end

