-- ==== Sys2Proof/Laws/Attributes.lean ====
section
/-! SUPPORT. The attribute table entry by entry (30_encoding.md R62, R64, R65). -/
namespace Sys2Proof

@[simp] theorem Mnemonic.operandCount_hlt : Mnemonic.hlt.operandCount = 0 := rfl
@[simp] theorem Mnemonic.operandCount_prn : Mnemonic.prn.operandCount = 1 := rfl
@[simp] theorem Mnemonic.operandCount_ldi : Mnemonic.ldi.operandCount = 2 := rfl
@[simp] theorem Mnemonic.operandCount_add : Mnemonic.add.operandCount = 2 := rfl

@[simp] theorem Instr.mnemonic_hlt : Instr.hlt.mnemonic = .hlt := rfl
@[simp] theorem Instr.mnemonic_prn (r : Word) : (Instr.prn r).mnemonic = .prn := rfl
@[simp] theorem Instr.mnemonic_ldi (r imm : Word) : (Instr.ldi r imm).mnemonic = .ldi := rfl
@[simp] theorem Instr.mnemonic_add (ra rb : Word) : (Instr.add ra rb).mnemonic = .add := rfl

@[simp] theorem Instr.regOperands_hlt : Instr.hlt.regOperands = [] := rfl
@[simp] theorem Instr.regOperands_prn (r : Word) : (Instr.prn r).regOperands = [r] := rfl
@[simp] theorem Instr.regOperands_ldi (r imm : Word) : (Instr.ldi r imm).regOperands = [r] := rfl
@[simp] theorem Instr.regOperands_add (ra rb : Word) : (Instr.add ra rb).regOperands = [ra, rb] := rfl

/-- An instruction has as many operand Words as its mnemonic has operands (30_encoding.md R60). -/
theorem Instr.operands_length (i : Instr) : i.operands.length = i.mnemonic.operandCount := by cases i <;> rfl

/-- An instruction has at most two operands (30_encoding.md R60). -/
theorem Mnemonic.operandCount_le_two (m : Mnemonic) : m.operandCount ≤ 2 := by cases m <;> decide

end Sys2Proof
end

