-- ==== Sys2Proof/Laws/Decode.lean ====
section
/-! SUPPORT. The opcode map read both ways, and the decoder's equations (30_encoding.md R63). -/
namespace Sys2Proof

/-- In an admissible map the opcode of a mnemonic decodes to it. -/
theorem decodeOpcode_opcode {m : OpcodeMap} (h : m.WellFormed) (op : Mnemonic) : decodeOpcode m (m.opcode op) = some op := by
  obtain ⟨hn, -⟩ := h
  simp only [List.nodup_cons, List.mem_cons, List.not_mem_nil, or_false, not_or] at hn
  obtain ⟨⟨a, b, c⟩, ⟨d, e⟩, f, -⟩ := hn
  cases op <;> simp [decodeOpcode, OpcodeMap.opcode, eq_comm, *]

/-- A Word that decodes to a mnemonic is its opcode. -/
theorem eq_opcode_of_decodeOpcode {m : OpcodeMap} {op : Mnemonic} {w : Word} (h : decodeOpcode m w = some op) :
    w = m.opcode op := by
  unfold decodeOpcode at h
  repeat' split at h
  all_goals cases h
  all_goals assumption

/-- The decoder on a list with an opcode. -/
theorem decode_cons (m : OpcodeMap) (w : Word) (ws : List Word) :
    decode m (w :: ws) =
      match decodeOpcode m w with
      | none => .error (.invalidOpcode w)
      | some op => decodeOperands op ws := rfl

/-- The operands of an instruction decode back to it. -/
theorem decodeOperands_operands (i : Instr) (ws : List Word) :
    decodeOperands i.mnemonic (i.operands ++ ws) = .ok (i, ws) := by cases i <;> rfl

end Sys2Proof
end

