-- ==== Sys2Proof/Laws/State.lean ====
section
/-! SUPPORT. One lemma per field per update of State, so that no proof unfolds a record update. -/
namespace Sys2Proof.Machine

variable (s : State)

@[simp] theorem State.writeReg_cfg (i : Nat) (v : Word) : (s.writeReg i v).cfg = s.cfg := rfl
@[simp] theorem State.writeReg_regs (i : Nat) (v : Word) : (s.writeReg i v).regs = s.regs.set i v := rfl
@[simp] theorem State.writeReg_pc (i : Nat) (v : Word) : (s.writeReg i v).pc = s.pc := rfl
@[simp] theorem State.writeReg_sp (i : Nat) (v : Word) : (s.writeReg i v).sp = s.sp := rfl
@[simp] theorem State.writeReg_fl (i : Nat) (v : Word) : (s.writeReg i v).fl = s.fl := rfl
@[simp] theorem State.writeReg_status (i : Nat) (v : Word) : (s.writeReg i v).status = s.status := rfl
@[simp] theorem State.writeReg_out (i : Nat) (v : Word) : (s.writeReg i v).out = s.out := rfl
@[simp] theorem State.writeReg_mem (i : Nat) (v : Word) : (s.writeReg i v).mem = s.mem := rfl

@[simp] theorem State.emit_cfg (v : Word) : (s.emit v).cfg = s.cfg := rfl
@[simp] theorem State.emit_regs (v : Word) : (s.emit v).regs = s.regs := rfl
@[simp] theorem State.emit_pc (v : Word) : (s.emit v).pc = s.pc := rfl
@[simp] theorem State.emit_sp (v : Word) : (s.emit v).sp = s.sp := rfl
@[simp] theorem State.emit_fl (v : Word) : (s.emit v).fl = s.fl := rfl
@[simp] theorem State.emit_status (v : Word) : (s.emit v).status = s.status := rfl
@[simp] theorem State.emit_out (v : Word) : (s.emit v).out = s.out ++ [v] := rfl
@[simp] theorem State.emit_mem (v : Word) : (s.emit v).mem = s.mem := rfl

@[simp] theorem State.halt_cfg : (s.halt).cfg = s.cfg := rfl
@[simp] theorem State.halt_regs : (s.halt).regs = s.regs := rfl
@[simp] theorem State.halt_pc : (s.halt).pc = s.pc := rfl
@[simp] theorem State.halt_sp : (s.halt).sp = s.sp := rfl
@[simp] theorem State.halt_fl : (s.halt).fl = s.fl := rfl
@[simp] theorem State.halt_status : (s.halt).status = .halted := rfl
@[simp] theorem State.halt_out : (s.halt).out = s.out := rfl
@[simp] theorem State.halt_mem : (s.halt).mem = s.mem := rfl

@[simp] theorem State.raise_cfg (f : FaultRecord) : (s.raise f).cfg = s.cfg := rfl
@[simp] theorem State.raise_regs (f : FaultRecord) : (s.raise f).regs = s.regs := rfl
@[simp] theorem State.raise_pc (f : FaultRecord) : (s.raise f).pc = s.pc := rfl
@[simp] theorem State.raise_sp (f : FaultRecord) : (s.raise f).sp = s.sp := rfl
@[simp] theorem State.raise_fl (f : FaultRecord) : (s.raise f).fl = s.fl := rfl
@[simp] theorem State.raise_status (f : FaultRecord) : (s.raise f).status = .faulted f := rfl
@[simp] theorem State.raise_out (f : FaultRecord) : (s.raise f).out = s.out := rfl
@[simp] theorem State.raise_mem (f : FaultRecord) : (s.raise f).mem = s.mem := rfl

@[simp] theorem State.applyFlags_cfg (fx : List FlagEffect) : (s.applyFlags fx).cfg = s.cfg := rfl
@[simp] theorem State.applyFlags_regs (fx : List FlagEffect) : (s.applyFlags fx).regs = s.regs := rfl
@[simp] theorem State.applyFlags_pc (fx : List FlagEffect) : (s.applyFlags fx).pc = s.pc := rfl
@[simp] theorem State.applyFlags_sp (fx : List FlagEffect) : (s.applyFlags fx).sp = s.sp := rfl
@[simp] theorem State.applyFlags_fl (fx : List FlagEffect) : (s.applyFlags fx).fl = fx.foldl writeFlag s.fl := rfl
@[simp] theorem State.applyFlags_status (fx : List FlagEffect) : (s.applyFlags fx).status = s.status := rfl
@[simp] theorem State.applyFlags_out (fx : List FlagEffect) : (s.applyFlags fx).out = s.out := rfl
@[simp] theorem State.applyFlags_mem (fx : List FlagEffect) : (s.applyFlags fx).mem = s.mem := rfl

@[simp] theorem State.start_cfg : (s.start).cfg = s.cfg := rfl
@[simp] theorem State.start_regs : (s.start).regs = s.regs := rfl
@[simp] theorem State.start_pc : (s.start).pc = s.pc := rfl
@[simp] theorem State.start_sp : (s.start).sp = s.sp := rfl
@[simp] theorem State.start_fl : (s.start).fl = s.fl := rfl
@[simp] theorem State.start_status : (s.start).status = .running := rfl
@[simp] theorem State.start_out : (s.start).out = s.out := rfl
@[simp] theorem State.start_mem : (s.start).mem = s.mem := rfl

@[simp] theorem State.advance_cfg (m : Mnemonic) : (s.advance m).cfg = s.cfg := by cases m <;> rfl
@[simp] theorem State.advance_regs (m : Mnemonic) : (s.advance m).regs = s.regs := by cases m <;> rfl
@[simp] theorem State.advance_sp (m : Mnemonic) : (s.advance m).sp = s.sp := by cases m <;> rfl
@[simp] theorem State.advance_fl (m : Mnemonic) : (s.advance m).fl = s.fl := by cases m <;> rfl
@[simp] theorem State.advance_status (m : Mnemonic) : (s.advance m).status = s.status := by cases m <;> rfl
@[simp] theorem State.advance_out (m : Mnemonic) : (s.advance m).out = s.out := by cases m <;> rfl
@[simp] theorem State.advance_mem (m : Mnemonic) : (s.advance m).mem = s.mem := by cases m <;> rfl
@[simp] theorem State.advance_prn_pc : (s.advance .prn).pc = s.pc + 2 := rfl
@[simp] theorem State.advance_ldi_pc : (s.advance .ldi).pc = s.pc + 3 := rfl
@[simp] theorem State.advance_add_pc : (s.advance .add).pc = s.pc + 3 := rfl
@[simp] theorem State.advance_hlt_pc : (s.advance .hlt).pc = s.pc := rfl

@[simp] theorem State.construct_cfg (c : Config) : (State.construct c).cfg = c := rfl
@[simp] theorem State.construct_regs (c : Config) : (State.construct c).regs = List.replicate c.numRegs 0#8 := rfl
@[simp] theorem State.construct_pc (c : Config) : (State.construct c).pc = c.entry := rfl
@[simp] theorem State.construct_sp (c : Config) : (State.construct c).sp = c.resetSp := rfl
@[simp] theorem State.construct_fl (c : Config) : (State.construct c).fl = 0#8 := rfl
@[simp] theorem State.construct_status (c : Config) : (State.construct c).status = .ready := rfl
@[simp] theorem State.construct_out (c : Config) : (State.construct c).out = [] := rfl
@[simp] theorem State.construct_mem (c : Config) : (State.construct c).mem = [] := rfl

end Sys2Proof.Machine
end

