-- ==== Sys2Proof/Laws/Memory.lean ====
section
/-! SUPPORT. The laws of the memory operations: reading back, the canonical form, and the bounds (20_memory.md). -/
namespace Sys2Proof.Machine

/-- Relaxing the lower bound of the canonical form. -/
theorem Memory.wfFrom_mono {lo lo' : Nat} (h : lo' ≤ lo) : ∀ {m : Memory}, Memory.wfFrom lo m = true → Memory.wfFrom lo' m = true
  | [], _ => rfl
  | (a, v) :: m, hm => by
    simp only [Memory.wfFrom, Bool.and_eq_true, decide_eq_true_eq] at hm ⊢
    exact ⟨⟨by omega, hm.1.2⟩, hm.2⟩

/-- A canonical memory from `lo` up reads 0 below `lo`. -/
theorem Memory.get_eq_zero_of_lt {lo : Nat} : ∀ {m : Memory} {a : Nat}, Memory.wfFrom lo m = true → a < lo → Memory.get m a = 0#8
  | [], _, _, _ => rfl
  | (b, w) :: m, a, hm, ha => by
    simp only [Memory.wfFrom, Bool.and_eq_true, decide_eq_true_eq] at hm
    rw [Memory.get, if_neg (by omega)]
    exact Memory.get_eq_zero_of_lt hm.2 (by omega)

/-- Setting a cell at or above `lo` keeps the canonical form from `lo` up. -/
theorem Memory.wfFrom_set : ∀ {lo : Nat} {m : Memory} {a : Nat} (v : Word),
    Memory.wfFrom lo m = true → lo ≤ a → Memory.wfFrom lo (Memory.set m a v) = true
  | lo, [], a, v, _, ha => by
    rw [Memory.set]; split
    · rfl
    · simp [Memory.wfFrom, *]
  | lo, (b, w) :: m, a, v, hm, ha => by
    have h := hm
    simp only [Memory.wfFrom, Bool.and_eq_true, decide_eq_true_eq] at h
    rw [Memory.set]
    split
    · split
      · exact hm
      · simp only [Memory.wfFrom, Bool.and_eq_true, decide_eq_true_eq]
        exact ⟨⟨ha, by simpa using ‹¬v = 0#8›⟩, ⟨by omega, h.1.2⟩, h.2⟩
    · split
      · split
        · exact Memory.wfFrom_mono (by omega) h.2
        · subst_vars
          simp only [Memory.wfFrom, Bool.and_eq_true, decide_eq_true_eq]
          exact ⟨⟨ha, by simpa using ‹¬v = 0#8›⟩, h.2⟩
      · simp only [Memory.wfFrom, Bool.and_eq_true, decide_eq_true_eq]
        exact ⟨h.1, Memory.wfFrom_set v h.2 (by omega)⟩

/-- Every write keeps the canonical form. -/
theorem Memory.wf_set {m : Memory} (h : m.wf = true) (a : Nat) (v : Word) : (m.set a v).wf = true :=
  Memory.wfFrom_set v h (Nat.zero_le a)

/-- The memory after reset is in canonical form. -/
theorem Memory.wf_nil : Memory.wf [] = true := rfl

/-- Setting a cell below `len` lists no address at or above `len`. -/
theorem Memory.below_set {len : Nat} : ∀ {m : Memory} {a : Nat} (v : Word),
    Memory.below len m = true → a < len → Memory.below len (Memory.set m a v) = true
  | [], a, v, _, ha => by
    rw [Memory.set]; split <;> simp [Memory.below, ha]
  | (b, w) :: m, a, v, hm, ha => by
    have h := hm
    simp only [Memory.below, List.all_cons, Bool.and_eq_true] at h
    have ih : (Memory.set m a v).all (fun c => decide (c.1 < len)) = true := Memory.below_set v h.2 ha
    have hd : decide (a < len) = true := decide_eq_true ha
    simp only [Memory.below, Memory.set]
    repeat' split
    all_goals try simp only [List.all_cons, Bool.and_eq_true]
    · exact h
    · exact ⟨hd, h⟩
    · exact h.2
    · exact ⟨hd, h.2⟩
    · exact ⟨h.1, ih⟩

/-- A cell reads back the Word set, and every other cell is unchanged. -/
theorem Memory.get_set_from : ∀ {lo : Nat} {m : Memory} (a b : Nat) (v : Word), Memory.wfFrom lo m = true →
    Memory.get (Memory.set m a v) b = if b = a then v else Memory.get m b
  | lo, [], a, b, v, _ => by
    rw [Memory.set]; split <;> simp_all [Memory.get]
  | lo, (c, w) :: m, a, b, v, hm => by
    have h := hm
    simp only [Memory.wfFrom, Bool.and_eq_true, decide_eq_true_eq] at h
    have hlow : ∀ x, x < c + 1 → Memory.get m x = 0#8 := fun x hx => Memory.get_eq_zero_of_lt h.2 hx
    rw [Memory.set]
    split
    · split
      · rcases eq_or_ne b a with rfl | hb
        · subst_vars
          rw [if_pos rfl, Memory.get, if_neg (by omega), hlow b (by omega)]
        · rw [if_neg hb]
      · simp only [Memory.get]
    · split
      · rename_i _ hac
        subst hac
        split
        · rename_i hv
          subst hv
          rcases eq_or_ne b a with rfl | hb
          · rw [if_pos rfl, hlow b (by omega)]
          · simp only [Memory.get, if_neg hb]
        · rcases eq_or_ne b a with rfl | hb
          · simp [Memory.get]
          · simp [Memory.get, hb]
      · simp only [Memory.get]
        rcases eq_or_ne b c with rfl | hb
        · rw [if_pos rfl, if_neg (by omega), if_pos rfl]
        · rw [if_neg hb, Memory.get_set_from a b v h.2, if_neg hb]

/-- Read after write, for a memory in canonical form. -/
theorem Memory.get_set {m : Memory} (h : m.wf = true) (a b : Nat) (v : Word) :
    (m.set a v).get b = if b = a then v else m.get b := Memory.get_set_from a b v h

/-- Everything a write can do: it succeeds exactly in range, and sets that one cell of the memory. -/
theorem State.memWrite_ok_iff {s t : State} {a v : Int} :
    s.memWrite a v = .ok t ↔ (0 ≤ a ∧ a < s.cfg.memLen) ∧ t = { s with mem := s.mem.set a.toNat (mask v) } := by
  unfold State.memWrite
  split
  · simp [*, eq_comm]
  · simp [*]

/-- A write fails exactly out of range, with the address. -/
theorem State.memWrite_error_iff {s : State} {a v : Int} {e : AddressError} :
    s.memWrite a v = .error e ↔ ¬(0 ≤ a ∧ a < s.cfg.memLen) ∧ e = ⟨a⟩ := by
  unfold State.memWrite
  split
  · simp [*]
  · simp [*, eq_comm]

/-- A read of a natural address. -/
theorem State.memRead_nat (s : State) (a : Nat) :
    s.memRead (a : Int) = if a < s.cfg.memLen then .ok (s.mem.get a) else .error ⟨a⟩ := by
  simp [State.memRead]

/-- A write keeps the canonical form and the bounds of the memory. -/
theorem State.memWrite_keeps_form {s t : State} {a v : Int} (h : s.memWrite a v = .ok t) (hw : s.mem.wf = true)
    (hb : s.mem.below s.cfg.memLen = true) : t.mem.wf = true ∧ t.mem.below t.cfg.memLen = true := by
  obtain ⟨hr, rfl⟩ := State.memWrite_ok_iff.mp h
  exact ⟨Memory.wf_set hw _ _, Memory.below_set _ hb (by simp only; omega)⟩

end Sys2Proof.Machine
end

