-- ==== Sys2Proof/Laws/Ops.lean ====
section
/-! SUPPORT. What each shared operation can do: masking, registers, the register-index check, the ALU. -/
namespace Sys2Proof.Machine

/-- The mask of an integer, as a number. -/
theorem mask_toNat (v : Int) : ((mask v).toNat : Int) = v % 256 := by
  simp only [mask, BitVec.toNat_ofInt]
  omega

/-- The mask of an exact sum of Words. -/
theorem mask_add_toNat (a b : Word) : (mask ((a.toNat : Int) + (b.toNat : Int))).toNat = (a.toNat + b.toNat) % 256 := by
  have := mask_toNat ((a.toNat : Int) + (b.toNat : Int))
  omega

/-- Reading a register back after a write inside the file. -/
theorem State.readReg_writeReg (s : State) (i j : Nat) (v : Word) (h : i < s.regs.length) :
    (s.writeReg i v).readReg j = if j = i then v else s.readReg j := by
  simp only [State.readReg, State.writeReg_regs, List.getD_eq_getElem?_getD, List.getElem?_set]
  rcases eq_or_ne j i with rfl | hj
  · simp [h]
  · simp [hj, Ne.symm hj]

/-- The register-index check passes exactly when every operand is valid. -/
theorem State.checkRegs_eq_none {s : State} : ∀ {ws : List Word},
    s.checkRegs ws = none ↔ ∀ w ∈ ws, w.toNat < s.cfg.numRegs
  | [] => by simp [State.checkRegs]
  | w :: ws => by
    rw [State.checkRegs, List.forall_mem_cons]
    by_cases h : w.toNat < s.cfg.numRegs
    · simp [State.regValid, h, State.checkRegs_eq_none (ws := ws)]
    · simp [State.regValid, h]

/-- The register-index check reports the first invalid operand. -/
theorem State.checkRegs_eq_find (s : State) : ∀ ws : List Word,
    s.checkRegs ws = (ws.find? (fun w => decide (s.cfg.numRegs ≤ w.toNat))).map (fun w => .outOfBounds .registerIndex w.toNat)
  | [] => rfl
  | w :: ws => by
    rw [State.checkRegs, List.find?_cons, State.checkRegs_eq_find s ws]
    by_cases h : w.toNat < s.cfg.numRegs
    · simp [State.regValid, h, decide_eq_false (Nat.not_le.mpr h)]
    · simp [State.regValid, h, decide_eq_true (Nat.not_lt.mp h)]

/-- The check of one register operand. -/
theorem State.checkRegs_one (s : State) (r : Word) :
    s.checkRegs [r] = if r.toNat < s.cfg.numRegs then none else some (.outOfBounds .registerIndex r.toNat) := by
  simp [State.checkRegs, State.regValid]

/-- The check of two register operands. -/
theorem State.checkRegs_two (s : State) (ra rb : Word) :
    s.checkRegs [ra, rb] =
      if ra.toNat < s.cfg.numRegs then
        if rb.toNat < s.cfg.numRegs then none else some (.outOfBounds .registerIndex rb.toNat)
      else some (.outOfBounds .registerIndex ra.toNat) := by
  simp [State.checkRegs, State.regValid]

end Sys2Proof.Machine
end

