-- ==== Sys2Proof/Laws/Exec.lean ====
section
/-! SUPPORT. What each instruction can do, as one equation per instruction (41 to 44), and the inversion of exec. -/
namespace Sys2Proof.Machine

/-- LDI in full. -/
theorem execLdi_eq (r imm : Word) (s : State) :
    execLdi r imm s =
      if r.toNat < s.cfg.numRegs then .next { s with regs := s.regs.set r.toNat imm, pc := s.pc + 3 }
      else .next (s.raise (.outOfBounds .registerIndex r.toNat)) := by
  change (match s.checkRegs [r] with | some f => _ | none => _) = _
  rw [State.checkRegs_one]
  by_cases h : r.toNat < s.cfg.numRegs
  · simp only [if_pos h]; rfl
  · simp only [if_neg h]

/-- PRN in full. -/
theorem execPrn_eq (r : Word) (s : State) :
    execPrn r s =
      if r.toNat < s.cfg.numRegs then .next { s with out := s.out ++ [s.readReg r.toNat], pc := s.pc + 2 }
      else .next (s.raise (.outOfBounds .registerIndex r.toNat)) := by
  change (match s.checkRegs [r] with | some f => _ | none => _) = _
  rw [State.checkRegs_one]
  by_cases h : r.toNat < s.cfg.numRegs
  · simp only [if_pos h]; rfl
  · simp only [if_neg h]

/-- ADD in full. -/
theorem execAdd_eq (ra rb : Word) (s : State) :
    execAdd ra rb s =
      if ra.toNat < s.cfg.numRegs then
        if rb.toNat < s.cfg.numRegs then
          .next { s with
            regs := s.regs.set ra.toNat (mask (((s.readReg ra.toNat).toNat : Int) + ((s.readReg rb.toNat).toNat : Int))),
            pc := s.pc + 3 }
        else .next (s.raise (.outOfBounds .registerIndex rb.toNat))
      else .next (s.raise (.outOfBounds .registerIndex ra.toNat)) := by
  change (match s.checkRegs [ra, rb] with | some f => _ | none => _) = _
  rw [State.checkRegs_two]
  by_cases ha : ra.toNat < s.cfg.numRegs
  · by_cases hb : rb.toNat < s.cfg.numRegs
    · simp only [if_pos ha, if_pos hb]; rfl
    · simp only [if_pos ha, if_neg hb]
  · simp only [if_neg ha]

/-- HLT in full. -/
theorem execHlt_eq (s : State) : execHlt s = .next { s with status := .halted } := rfl

/-- Everything exec can do: the fault of the register-index check with nothing else written, or the instruction's effect. -/
theorem exec_cases {i : Instr} {s t : State} (h : exec i s = .next t) :
    (∃ w ∈ i.regOperands, s.cfg.numRegs ≤ w.toNat ∧ t = s.raise (.outOfBounds .registerIndex w.toNat)) ∨
    (i = .hlt ∧ t = { s with status := .halted }) ∨
    (∃ r, i = .prn r ∧ r.toNat < s.cfg.numRegs ∧ t = { s with out := s.out ++ [s.readReg r.toNat], pc := s.pc + 2 }) ∨
    (∃ r imm, i = .ldi r imm ∧ r.toNat < s.cfg.numRegs ∧ t = { s with regs := s.regs.set r.toNat imm, pc := s.pc + 3 }) ∨
    (∃ ra rb, i = .add ra rb ∧ ra.toNat < s.cfg.numRegs ∧ rb.toNat < s.cfg.numRegs ∧
      t = { s with
        regs := s.regs.set ra.toNat (mask (((s.readReg ra.toNat).toNat : Int) + ((s.readReg rb.toNat).toNat : Int))),
        pc := s.pc + 3 }) := by
  cases i with
  | hlt =>
    rw [exec, execHlt_eq] at h
    cases h
    exact .inr (.inl ⟨rfl, rfl⟩)
  | prn r =>
    rw [exec, execPrn_eq] at h
    split at h <;> cases h
    · exact .inr (.inr (.inl ⟨r, rfl, ‹_›, rfl⟩))
    · exact .inl ⟨r, List.mem_singleton.mpr rfl, by omega, rfl⟩
  | ldi r imm =>
    rw [exec, execLdi_eq] at h
    split at h <;> cases h
    · exact .inr (.inr (.inr (.inl ⟨r, imm, rfl, ‹_›, rfl⟩)))
    · exact .inl ⟨r, List.mem_singleton.mpr rfl, by omega, rfl⟩
  | add ra rb =>
    rw [exec, execAdd_eq] at h
    split at h
    · split at h <;> cases h
      · exact .inr (.inr (.inr (.inr ⟨ra, rb, rfl, ‹_›, ‹_›, rfl⟩)))
      · exact .inl ⟨rb, List.mem_cons_of_mem _ (List.mem_singleton.mpr rfl), by omega, rfl⟩
    · cases h
      exact .inl ⟨ra, List.mem_cons_self, by omega, rfl⟩

end Sys2Proof.Machine
end

