-- ==== Sys2Proof/Laws/Fetch.lean ====
section
/-! SUPPORT. What fetching can do (40_cycle.md R81, R82): the Word read, the instruction fetched, the fault raised. -/
namespace Sys2Proof.Machine

/-- Reading one code Word: the cell's value in range, the fault with its address out of range. -/
theorem State.fetchWord_eq (s : State) (kind : AccessKind) (j : Nat) :
    s.fetchWord kind j = if s.pc + j < s.cfg.memLen then .ok (s.codeWord j) else .error (.outOfBounds kind (s.pc + j)) := by
  rw [State.fetchWord, State.memRead_nat]
  by_cases h : s.pc + j < s.cfg.memLen
  · simp only [if_pos h]; rfl
  · simp only [if_neg h]

/-- What fetching the operands of an opcode can do: the instruction, with every operand in Memory, or the first operand
address past the end. -/
theorem State.fetchOperands_cases (s : State) (op : Mnemonic) :
    (∃ i, s.fetchOperands op = .ok i ∧ i.mnemonic = op ∧ (s.pc < s.cfg.memLen → s.pc + op.operandCount < s.cfg.memLen) ∧
      i.operands = (List.range' 1 op.operandCount).map s.codeWord) ∨
    (∃ j, s.fetchOperands op = .error (.outOfBounds .operandFetch (s.pc + j)) ∧
      (List.range' 1 op.operandCount).find? (fun j => decide (s.cfg.memLen ≤ s.pc + j)) = some j) := by
  by_cases h1 : s.pc + 1 < s.cfg.memLen
  · have e1 : ¬ s.cfg.memLen ≤ s.pc + 1 := by omega
    by_cases h2 : s.pc + 2 < s.cfg.memLen
    · left
      cases op <;> simp [State.fetchOperands, State.fetchWord_eq, h1, h2, Instr.operands, List.range']
    · have e2 : s.cfg.memLen ≤ s.pc + 2 := by omega
      cases op <;> simp [State.fetchOperands, State.fetchWord_eq, h1, h2, Instr.operands, List.range', e1, e2]
  · have e1 : s.cfg.memLen ≤ s.pc + 1 := by omega
    cases op <;> simp [State.fetchOperands, State.fetchWord_eq, h1, Instr.operands, List.range', e1]

/-- A fetched instruction stands at pc: its opcode is in the map and every Word of it is in Memory. -/
theorem State.fetch_ok {s : State} {i : Instr} (h : s.fetch = .ok i) :
    decodeOpcode s.cfg.opcodeMap (s.codeWord 0) = some i.mnemonic ∧ s.pc + i.mnemonic.operandCount < s.cfg.memLen ∧
      i.operands = (List.range' 1 i.mnemonic.operandCount).map s.codeWord := by
  rw [State.fetch, State.fetchWord_eq] at h
  by_cases h0 : s.pc + 0 < s.cfg.memLen
  · rw [if_pos h0] at h
    simp only at h
    split at h
    · cases h
    · rename_i op hop
      obtain ⟨i', hi, rfl, hl, ho⟩ | ⟨j, hj, -⟩ := s.fetchOperands_cases op
      · rw [hi] at h; cases h
        exact ⟨hop, hl (by omega), ho⟩
      · rw [hj] at h; cases h
  · rw [if_neg h0] at h; cases h

/-- A fault of the fetch is the first fault of the instruction at pc. -/
theorem State.fetch_error {s : State} {f : FaultRecord} (h : s.fetch = .error f) : s.firstFault = some f := by
  rw [State.fetch, State.fetchWord_eq] at h
  rw [State.firstFault]
  by_cases h0 : s.pc + 0 < s.cfg.memLen
  · rw [if_pos h0] at h
    rw [if_neg (by omega)]
    cases hop : decodeOpcode s.cfg.opcodeMap (s.codeWord 0) with
    | none => simp only [hop] at h ⊢; cases h; rfl
    | some op =>
      simp only [hop] at h ⊢
      obtain ⟨i', hi, -⟩ | ⟨j, hj, hf⟩ := s.fetchOperands_cases op
      · rw [hi] at h; cases h
      · rw [hj] at h; cases h
        simp only [hf]
  · rw [if_neg h0] at h; cases h
    rw [if_pos (by omega)]; rfl

/-- Once the fetch succeeds, the first fault is that of the register-index check. -/
theorem State.firstFault_of_fetch_ok {s : State} {i : Instr} (h : s.fetch = .ok i) :
    s.firstFault = s.checkRegs i.regOperands := by
  obtain ⟨hd, hlen, hops⟩ := State.fetch_ok h
  have hn : (List.range' 1 i.mnemonic.operandCount).find? (fun j => decide (s.cfg.memLen ≤ s.pc + j)) = none := by
    rw [List.find?_eq_none]
    intro j hj
    rw [List.mem_range'_1] at hj
    simp only [decide_eq_true_eq]
    omega
  rw [State.firstFault, if_neg (by omega), hd]
  simp only [hn, State.checkRegs_eq_find, Instr.regOperands, hops]
  cases List.find? _ (regWords _ _) <;> rfl

end Sys2Proof.Machine
end

