-- ==== Sys2Proof/Laws/PerInstr.lean ====
section
/-! SUPPORT. The per-instruction family: the length of an encoding is 1 + the count field of its opcode (30_encoding.md R60, R61). -/
namespace Sys2Proof.Laws.EncodedLength

/-- For every admissible map an instruction is well formed and is encoded in 1 + k Words, where k is the count field, bits [7:6],
of its opcode and also its number of operands (30_encoding.md R60, R61). -/
def Statement (i : Instr) : Prop :=
  i.wellFormed = true ∧
    ∀ m : OpcodeMap, m.WellFormed →
      (encode m i).length = 1 + countField (m.opcode i.mnemonic) ∧ countField (m.opcode i.mnemonic) = i.operands.length

theorem hlt : Statement .hlt := ⟨rfl, fun _ ⟨_, _, h, _, _, _⟩ => ⟨congrArg (1 + ·) h.symm, h⟩⟩

theorem prn (r : Word) : Statement (.prn r) := ⟨rfl, fun _ ⟨_, _, _, h, _, _⟩ => ⟨congrArg (1 + ·) h.symm, h⟩⟩

theorem ldi (r imm : Word) : Statement (.ldi r imm) := ⟨rfl, fun _ ⟨_, _, _, _, h, _⟩ => ⟨congrArg (1 + ·) h.symm, h⟩⟩

theorem add (ra rb : Word) : Statement (.add ra rb) := ⟨rfl, fun _ ⟨_, _, _, _, _, h⟩ => ⟨congrArg (1 + ·) h.symm, h⟩⟩

end Sys2Proof.Laws.EncodedLength
end

