-- ==== Sys2Proof/Laws/Step.lean ====
section
/-! SUPPORT. Everything one step can do (40_cycle.md R80 to R87), said once. -/
namespace Sys2Proof.Machine

/-- In status Running a step is the spec's step. -/
theorem step_running {s : State} (h : s.status = .running) : step s = cycle s := by
  rw [step, transition, h]

/-- In a terminal status there is no next state. -/
theorem step_ne_next_of_terminal {s t : State} (h : s.status.terminal = true) : step s ≠ .next t := by
  rw [step, transition]
  cases hs : s.status <;> simp_all [Status.terminal]

/-- Everything a step can do: the start of a run, a fault of the fetch, or the fetched instruction. -/
theorem step_cases {s t : State} (h : step s = .next t) :
    (s.status = .ready ∧ t = s.start) ∨
    (s.status = .running ∧ ∃ f, s.fetch = .error f ∧ t = s.raise f) ∨
    (s.status = .running ∧ ∃ i, s.fetch = .ok i ∧ exec i s = .next t) := by
  rw [step, transition] at h
  split at h
  · cases h; exact .inl ⟨‹_›, rfl⟩
  · rw [cycle] at h
    split at h
    · cases h; exact .inr (.inl ⟨‹_›, _, ‹_›, rfl⟩)
    · exact .inr (.inr ⟨‹_›, _, ‹_›, h⟩)
  · cases h
  · cases h

/-- A fetched instruction that fails the register-index check takes that fault, which is the first fault of the step. -/
theorem exec_raise_is_firstFault {i : Instr} {s t : State} {f : FaultRecord} (hf : s.fetch = .ok i)
    (hc : s.checkRegs i.regOperands = some f) (h : exec i s = .next t) : t = s.raise f ∧ s.firstFault = some f := by
  refine ⟨?_, by rw [State.firstFault_of_fetch_ok hf, hc]⟩
  cases i <;> simp_all [exec, execPrn, execLdi, execAdd, State.checkRegs]

end Sys2Proof.Machine
end

