-- ==== Sys2Proof/Tests/Slice0.lean ====
section
/-! SUPPORT. Tests on values from outside the model (95_test_vectors.md, 30_encoding.md), the WellFormed smoke tests, and for
each statement a concrete state that meets its hypotheses. -/
namespace Sys2Proof.Tests
open Sys2Proof.Machine

/-- The next state of an outcome, if it is one. -/
def nextOf (o : Host.Outcome State Fault Refusal) : Option State :=
  match o with
  | .next s => some s
  | .fault _ => none
  | .refused _ => none

/-- A running default machine with Words at an address and pc there. -/
def runAt (a : Nat) (ws : List Word) : State := { State.reset.place a ws with pc := a, status := .running }

/-- The default parameters with another memory length and entry (95_test_vectors.md S4, §3.4). -/
def sized (len entry : Nat) : Config := { Config.base with memLen := len, entry := entry }

/-! WellFormed: one ill-formed term for each check. -/

theorem smoke_config_base : Config.base.WellFormed := by decide
theorem smoke_memLen_zero : ¬ (sized 0 0).WellFormed := by decide
theorem smoke_memLen_over : ¬ (sized 257 0).WellFormed := by decide
theorem smoke_numRegs_zero : ¬ ({ Config.base with numRegs := 0 } : Config).WellFormed := by decide
theorem smoke_numRegs_over : ¬ ({ Config.base with numRegs := 257 } : Config).WellFormed := by decide
theorem smoke_opcodes_equal : ¬ ({ OpcodeMap.base with add := 0x82 } : OpcodeMap).WellFormed := by decide
theorem smoke_opcode_FF : ¬ ({ OpcodeMap.base with add := 0xFF } : OpcodeMap).WellFormed := by decide
theorem smoke_hlt_count : ¬ ({ OpcodeMap.base with hlt := 0x41 } : OpcodeMap).WellFormed := by decide
theorem smoke_prn_count : ¬ ({ OpcodeMap.base with prn := 0x07 } : OpcodeMap).WellFormed := by decide
theorem smoke_ldi_count : ¬ ({ OpcodeMap.base with ldi := 0x42 } : OpcodeMap).WellFormed := by decide
theorem smoke_add_count : ¬ ({ OpcodeMap.base with add := 0x20 } : OpcodeMap).WellFormed := by decide
/-- 00_scope.md R10: an ENTRY past Memory is legal; R11: another admissible map. -/
theorem smoke_entry_past_memory : (sized 256 300).WellFormed := by decide
theorem smoke_other_map : ({ hlt := 0x3F, prn := 0x40, ldi := 0xBF, add := 0x80 } : OpcodeMap).WellFormed := by decide

/-! Decoding: words written out bit by bit from 30_encoding.md R66, operands all different. -/

theorem test_decode_ldi : decode OpcodeMap.base [0b10000010, 0b00000101, 0b11000011] = .ok (.ldi 5 195, []) := by decide
theorem test_decode_prn : decode OpcodeMap.base [0b01000111, 0b00000110, 0b00000001] = .ok (.prn 6, [1]) := by decide
theorem test_decode_add : decode OpcodeMap.base [0b10100000, 0b00000010, 0b00000111] = .ok (.add 2 7, []) := by decide
theorem test_decode_hlt : decode OpcodeMap.base [0b00000001, 0b11111111] = .ok (.hlt, [0xFF]) := by decide
/-- 95_test_vectors.md §3.3. -/
theorem test_decode_invalid :
    [0x00, 0x02, 0x45, 0x81, 0x83, 0xA2, 0xC0, 0xFF].map (decodeOpcode OpcodeMap.base) = List.replicate 8 none := by decide
theorem test_decode_missing_operand : decode OpcodeMap.base [0x82, 0x00] = .error (.missingOperand 2) := by decide
/-- The table's numbering: the second word is bits 15..8, the third bits 23..16; bits at or above nbits are zero. -/
theorem test_tableWord_ldi : decodeTableWord 24 0x080382 = some (.ldi 3 8) := by decide
theorem test_tableWord_cut : decodeTableWord 8 0x0803A0 = some (.add 0 0) := by decide
theorem test_tableWord_prn : decodeTableWord 8 0x47 = some (.prn 0) := by decide
theorem test_tableWord_hlt : decodeTableWord 8 0x01 = some .hlt := by decide

/-! The encoder and the assembler against 30_encoding.md §5. -/

theorem test_encode_program :
    encodeProgram OpcodeMap.base [.ldi 0 8, .prn 0, .add 0 1, .hlt] = [0x82, 0x00, 0x08, 0x47, 0x00, 0xA0, 0x00, 0x01, 0x01] := by decide
theorem test_assemble_masks : assemble OpcodeMap.base [.mnemonic .ldi, .reg 0, .int 260] = [0x82, 0x00, 0x04] := by decide
/-- 42_output.md R107. -/
theorem test_render : renderWord .lower 255 = ['0', 'x', 'f', 'f'] ∧ renderWord .upper 0xAB = ['0', 'x', 'A', 'B'] ∧
    renderWord .lower 8 = ['0', 'x', '0', '8'] := by decide

/-! 95_test_vectors.md §3.1, §3.2, §3.6. -/

theorem test_mask : [0, 255, 256, 260, 511, 512, -1, -128, -256, -257].map mask = [0, 255, 0, 4, 255, 0, 255, 128, 0, 255] := by decide
theorem test_memory_write_read : (State.reset.memWrite 3 300).toOption.map (fun s => (s.memRead 3).toOption) = some (some 44) := by decide
theorem test_memory_bounds : State.reset.memRead 256 = .error ⟨256⟩ ∧ State.reset.memRead (-1) = .error ⟨-1⟩ := by decide
theorem test_flag_effect : writeFlag 0b10000001 ⟨7, false⟩ = 0b00000001 ∧ writeFlag 0b10000001 ⟨2, true⟩ = 0b10000101 := by decide

/-! One step of each instruction (95_test_vectors.md §3.4 to §3.8). -/

theorem test_ldi_last_cells : (nextOf (step (runAt 253 [0x82, 0x00, 0x01]))).map (fun t => (t.regs.take 2, t.pc, t.status)) =
    some ([1, 0], 256, .running) := by decide
theorem test_ldi_bad_register : (nextOf (step (runAt 0 [0x82, 0x08, 0x01]))).map (fun t => (t.regs, t.pc, t.status)) =
    some (List.replicate 8 0, 0, .faulted (.outOfBounds .registerIndex 8)) := by decide
theorem test_prn_appends : (nextOf (step { runAt 0 [0x47, 0x07] with regs := [0, 0, 0, 0, 0, 0, 0, 255], out := [9] })).map
    (fun t => (t.out, t.pc)) = some ([9, 255], 2) := by decide
theorem test_prn_last_cell : (nextOf (step (runAt 255 [0x47]))).map (fun t => (t.out, t.pc, t.status)) =
    some ([], 255, .faulted (.outOfBounds .operandFetch 256)) := by decide
theorem test_add_wraps_into_op1 : (nextOf (step { runAt 0 [0xA0, 0x01, 0x00] with regs := [250, 10, 0, 0, 0, 0, 0, 0] })).map
    (fun t => (t.regs.take 2, t.pc, t.fl)) = some ([250, 4], 3, 0) := by decide
theorem test_add_doubles : (nextOf (step { runAt 0 [0xA0, 0x02, 0x02] with regs := [0, 0, 0x80, 0, 0, 0, 0, 0] })).map
    (fun t => (t.regs.take 3, t.pc)) = some ([0, 0, 0], 3) := by decide
theorem test_hlt_last_cell : (nextOf (step (runAt 255 [0x01]))).map (fun t => (t.pc, t.status)) = some (255, .halted) := by decide

/-! Fault priority (95_test_vectors.md §3.9) and the small machine of S4 (MEM_LEN = 6, ENTRY = 5). -/

theorem test_invalid_before_operands : (nextOf (step (runAt 255 [0xFF]))).map (fun t => (t.status, t.pc)) =
    some (.faulted (.invalidOpcode 0xFF), 255) := by decide
theorem test_operand_before_register : (nextOf (step (runAt 254 [0x82, 0x09]))).map (fun t => (t.status, t.pc)) =
    some (.faulted (.outOfBounds .operandFetch 256), 254) := by decide
theorem test_entry_past_memory : (nextOf (step (State.construct (sized 256 300)).start)).map (fun t => (t.status, t.pc)) =
    some (.faulted (.outOfBounds .opcodeFetch 300), 300) := by decide
theorem test_scenario4_load : (hostAct (.load [0x47, 0x00, 0x01] 5) (State.construct (sized 6 5))).map
    (fun p => (p.1, p.2.mem, p.2.status)) = some (.outOfBounds 6, [(5, 0x47)], .ready) := by decide
theorem test_sp_of_small_memory : (State.construct (sized 8 0)).sp = 7 ∧ (State.construct (sized 6 0)).sp = 5 := by decide

/-! Host actions (95_test_vectors.md §3.10) and the placing of an instruction. -/

theorem test_preset_masks : (hostAct (.preset 0 260) State.reset).map (fun p => (p.1, p.2.regs.take 2)) = some (.done, [4, 0]) := by decide
theorem test_preset_bad : hostAct (.preset 8 1) State.reset = some (.outOfBounds 8, State.reset) := by decide
theorem test_load_stops : (hostAct (.load [1, 2, 3] 254) State.reset).map (fun p => (p.1, p.2.mem)) =
    some (.outOfBounds 256, [(254, 1), (255, 2)]) := by decide
theorem test_no_move_when_halted : hostAct (.preset 0 1) { State.reset with status := .halted } = none := by decide
theorem test_withFetchWord_runs : nextOf (step (State.reset.withFetchWord 24 0x080382)) =
    nextOf (exec (.ldi 3 8) (State.reset.withFetchWord 24 0x080382)) := by decide
theorem test_withFetchWord_mem : (State.reset.withFetchWord 24 0x080382).mem = [(0, 0x82), (1, 0x03), (2, 0x08)] := by decide

/-! Witnesses: for each statement with hypotheses, a concrete state and operands that meet them all. -/

theorem witness_DecodeInvertsEncode : OpcodeMap.base.WellFormed := by decide
theorem witness_PackedProgramDecodesBack : OpcodeMap.base.WellFormed ∧ [Instr.prn 255, .hlt].length ≤ 2 := by decide
theorem witness_AssemblerAgreesWithDecoder : OpcodeMap.base.WellFormed := by decide
theorem witness_AluAddIsMaskedSumWithoutFlags : (nextOf (exec (.add 7 0) State.reset)).isSome = true := by decide
theorem witness_UnsupportedOperationIsUnreachable :
    AluTag.other 0 ≠ .add ∧ (runAt 0 [0x01]).status = .running ∧ (nextOf (step (runAt 0 [0x01]))).isSome = true := by decide
theorem witness_MemoryReadsBackWhatWasWritten : State.reset.mem.wf = true ∧ ((0 : Int) ≤ 0 ∧ (0 : Int) < State.reset.cfg.memLen) ∧
    ((0 : Int) ≤ 255 ∧ (255 : Int) < State.reset.cfg.memLen) ∧ (-1 : Int) < 0 ∧ (State.reset.cfg.memLen : Int) ≤ 256 := by decide
theorem witness_MemoryFormIsCanonical : Memory.wf [(3, 7)] = true ∧ ∀ a, Memory.get [(3, 7)] a = Memory.get [(3, 7)] a :=
  ⟨by decide, fun _ => rfl⟩
theorem witness_RegistersAreIndependent : State.reset.regs.length = State.reset.cfg.numRegs ∧ 7 < State.reset.cfg.numRegs := by decide
theorem witness_LdiWritesImmediate :
    State.reset.regs.length = State.reset.cfg.numRegs ∧ (7 : Word).toNat < State.reset.cfg.numRegs := by decide
theorem witness_PrnEmitsRegister : (7 : Word).toNat < State.reset.cfg.numRegs := by decide
theorem witness_AddWritesSumModulo : State.reset.regs.length = State.reset.cfg.numRegs ∧
    (7 : Word).toNat < State.reset.cfg.numRegs ∧ (0 : Word).toNat < State.reset.cfg.numRegs := by decide
theorem witness_HltHaltsInPlace : nextOf (exec .hlt State.reset) = some { State.reset with status := .halted } := by decide
theorem witness_InvalidRegisterIndexFaults : State.reset.cfg.numRegs ≤ (8 : Word).toNat ∧
    (7 : Word).toNat < State.reset.cfg.numRegs ∧ State.reset.cfg.numRegs ≤ (255 : Word).toNat := by decide
theorem witness_InstructionFrame : ((nextOf (exec (.ldi 7 1) State.reset)).isSome && (nextOf (exec (.prn 7) State.reset)).isSome &&
    (nextOf (exec (.add 0 7) State.reset)).isSome && (nextOf (exec .hlt State.reset)).isSome &&
    (nextOf (exec (.prn 8) State.reset)).isSome) = true := by decide
theorem witness_AttributesGovernExecution : (runAt 0 []).status = .running ∧ (nextOf (exec (.prn 7) (runAt 0 []))).map (fun t => t.status) =
    some .running ∧ (nextOf (exec .hlt (runAt 0 []))).isSome = true ∧ Mnemonic.prn.attributes.writesBack = false ∧
    Mnemonic.prn.attributes.halts = false ∧ Mnemonic.prn.attributes.setsPc = false ∧ Mnemonic.hlt.attributes.halts = true := by decide
theorem witness_OnlyTerminalStatusesStop : State.reset.status.terminal = false ∧ (runAt 0 []).status.terminal = false ∧
    Status.halted.terminal = true ∧ (nextOf (step State.reset)).isSome = true ∧
    nextOf (step { State.reset with status := .halted }) = none := by decide
theorem witness_StepRunsDecodedInstruction : (runAt 253 [0xA0, 0x00, 0x07]).status = .running ∧
    decode (runAt 253 [0xA0, 0x00, 0x07]).cfg.opcodeMap (runAt 253 [0xA0, 0x00, 0x07]).window = .ok (.add 0 7, []) := by decide
theorem witness_LdiStepInFull : (runAt 253 [0x82]).status = .running ∧ (runAt 253 [0x82]).cfg.opcodeMap = OpcodeMap.base ∧
    (runAt 256 []).cfg.memLen ≤ (runAt 256 []).pc ∧ (runAt 253 [0x82]).pc < 256 ∧ (runAt 253 [0x82]).codeWord 0 = 0x82#8 := by decide
theorem witness_PrnStepInFull : (runAt 255 [0x47]).status = .running ∧ (runAt 255 [0x47]).cfg.opcodeMap = OpcodeMap.base ∧
    (runAt 256 []).cfg.memLen ≤ (runAt 256 []).pc ∧ (runAt 255 [0x47]).pc < 256 ∧ (runAt 255 [0x47]).codeWord 0 = 0x47#8 := by decide
theorem witness_AddStepInFull : (runAt 0 [0xA0]).status = .running ∧ (runAt 0 [0xA0]).cfg.opcodeMap = OpcodeMap.base ∧
    (runAt 256 []).cfg.memLen ≤ (runAt 256 []).pc ∧ (runAt 0 [0xA0]).pc < 256 ∧ (runAt 0 [0xA0]).codeWord 0 = 0xA0#8 := by decide
theorem witness_HltStepInFull : (runAt 255 [0x01]).status = .running ∧ (runAt 255 [0x01]).cfg.opcodeMap = OpcodeMap.base ∧
    (runAt 256 []).cfg.memLen ≤ (runAt 256 []).pc ∧ (runAt 255 [0x01]).pc < 256 ∧ (runAt 255 [0x01]).codeWord 0 = 0x01#8 := by decide
theorem witness_StepTakesFirstFault : (runAt 255 [0xA0]).status = .running ∧
    (runAt 255 [0xA0]).firstFault = some (.outOfBounds .operandFetch 256) ∧
    (runAt 0 [0xA0, 7, 8]).firstFault = some (.outOfBounds .registerIndex 8) ∧
    (runAt 0 []).firstFault = some (.invalidOpcode 0) ∧ (runAt 256 []).firstFault = some (.outOfBounds .opcodeFetch 256) ∧
    (runAt 253 [0xA0, 7, 0]).firstFault = none := by decide
theorem witness_FaultWritesOnlyStatusAndEndsTheRun : (runAt 0 []).status = .running ∧
    (nextOf (step (runAt 0 []))).map (fun t => t.status) = some (.faulted (.invalidOpcode 0)) := by decide
theorem witness_StatusTransitionsAreExactlyThese : State.reset.status = .ready ∧ (runAt 0 [0x01]).status = .running ∧
    (nextOf (step (runAt 0 [0x01]))).map (fun t => t.status) = some .halted ∧ Status.halted.terminal = true ∧
    hostAct .run { State.reset with status := .halted } = some (.done, { State.reset with status := .halted }) := by decide
theorem witness_HostMovesByStatus : (Status.faulted (.invalidOpcode 0)).terminal = true := by decide
theorem witness_LoadWritesUpToTheFirstBadAddress : State.reset.mem.wf = true := by decide
theorem witness_PresetWritesOneRegister : State.reset.regs.length = State.reset.cfg.numRegs ∧
    ((0 : Int) ≤ 7 ∧ (7 : Int) < State.reset.cfg.numRegs) ∧ (-1 : Int) < 0 ∧ (State.reset.cfg.numRegs : Int) ≤ 8 := by decide
theorem witness_ResetRestoresEveryPieceOfState : State.reset.cfg.WellFormed ∧ Status.halted ≠ .running := by decide
theorem witness_SnapshotShowsAllAndChangesNothing : (hostAct .snapshot (State.construct (sized 6 5))).map (fun p => p.1) =
    some (.snapshot { pc := 5, sp := 5, fl := 0, memory := List.replicate 6 0, regs := List.replicate 8 0, status := .ready, out := [] }) := by
  decide
theorem witness_ResetMeetsInvariant : (sized 6 5).WellFormed := by decide

/-- A running engine about to execute `LDI R0, 8` meets the invariant. -/
theorem witness_inv_running : (runAt 0 [0x82, 0x00, 0x08]).Inv where
  cfg_wf := by decide
  regs_len := by decide
  mem_wf := by decide
  mem_below := by decide
  pc_le := by decide
  sp_reset := by decide
  fl_reset := by decide
  ready_boot := fun h => by cases h
  halted_pc := fun h => by cases h
  fault_just := fun _ h => by cases h

theorem witness_StepKeepsInvariant : (runAt 0 [0x82, 0x00, 0x08]).Inv ∧ (nextOf (step (runAt 0 [0x82, 0x00, 0x08]))).isSome = true :=
  ⟨witness_inv_running, by decide⟩

/-- A halted engine meets the invariant, and reset has a move there. -/
theorem witness_HostActionsKeepInvariant : ({ runAt 0 [0x01] with status := .halted } : State).Inv ∧
    (hostAct .reset { runAt 0 [0x01] with status := .halted }).isSome = true := by
  refine ⟨⟨by decide, by decide, by decide, by decide, by decide, by decide, by decide, fun h => ?_, fun _ => by decide, fun _ h => ?_⟩,
    by decide⟩ <;> cases h

theorem witness_PcAdvancesByInstructionLength : (nextOf (step (runAt 253 [0x82, 0x00, 0x08]))).map (fun t => t.status) = some .running ∧
    (nextOf (step (runAt 255 [0x01]))).map (fun t => t.status) = some .halted := by decide
theorem witness_EveryRunEnds : (runAt 0 [0x01]).status = .running ∧ (nextOf (runSteps 1 (runAt 0 [0x01]))).map (fun t => t.status) = some .halted := by
  decide
theorem witness_RunReturnsTheTerminalState : State.reset.status = .ready ∧
    (nextOf (runSteps 2 State.reset)).map (fun t => t.status) = some (.faulted (.invalidOpcode 0)) := by decide
theorem witness_MemoryIsConstantDuringARun : (nextOf (step (runAt 0 [0x47, 0x07]))).isSome = true := by decide
theorem witness_SpAndFlInfluenceNothing : (nextOf (step (runAt 0 [0xA0, 0x07, 0x07]))).isSome = true := by decide
theorem witness_StepReadsOnlyItsOwnWords : (runAt 5 [0x01]).mem.wf = true ∧ (runAt 5 [0x01]).pc < (runAt 5 [0x01]).cfg.memLen ∧
    decodeOpcode (runAt 5 [0x01]).cfg.opcodeMap ((runAt 5 [0x01]).codeWord 0) = some .hlt ∧ (4 : Int) < (runAt 5 [0x01]).pc ∧
    ((runAt 5 [0x01]).pc : Int) + 1 + Mnemonic.hlt.operandCount ≤ 6 ∧ ((runAt 5 [0x01]).memWrite 4 255).toOption.isSome = true ∧
    ((runAt 5 [0x01]).memWrite 6 255).toOption.isSome = true ∧ (nextOf (step (runAt 5 [0x01]))).isSome = true := by decide
theorem witness_OneEventPerCompletedPrn : (runAt 0 [0x47, 0x07]).status = .running ∧
    (nextOf (step (runAt 0 [0x47, 0x07]))).map (fun t => t.out) = some [0] := by decide

end Sys2Proof.Tests
end

/-! The masking of the Word datapath (10_state.md R18). -/
namespace Sys2Proof.Machine

/-- A Word is its own mask (10_state.md R18). -/
@[simp] theorem mask_word (w : Word) : mask (w.toNat : Int) = w := by
  rw [mask, BitVec.ofInt_natCast, BitVec.ofNat_toNat, BitVec.setWidth_eq]

theorem mask_toNat_mem_range (v : Int) : 0 ≤ ((mask v).toNat : Int) ∧ ((mask v).toNat : Int) < 256 := by
  rw [mask_toNat]
  exact ⟨Int.emod_nonneg v (by decide), Int.emod_lt_of_pos v (by decide)⟩

/-- The integers of [0, 2^8) stand for the residue classes modulo 2^8, one for each, and the mask picks v's. -/
theorem residue_iff_eq_mask (v n : Int) : (0 ≤ n ∧ n < 256 ∧ n % 256 = v % 256) ↔ n = ((mask v).toNat : Int) := by
  constructor
  · rintro ⟨hnonneg, hlt, hcongr⟩
    rw [mask_toNat, ← hcongr, Int.emod_eq_of_lt hnonneg hlt]
  · rintro rfl
    obtain ⟨hnonneg, hlt⟩ := mask_toNat_mem_range v
    exact ⟨hnonneg, hlt, by rw [mask_toNat, Int.emod_emod]⟩

/-- Settles O6: the mask is the remainder modulo 2^8, and idempotence is the identity on Words at the Word `mask v`. -/
theorem maskIsReductionModuloTwoToTheEight : Obligations.MaskIsReductionModuloTwoToTheEight := by
  refine ⟨fun v => ⟨mask_word (mask v), ?_⟩, mask_word, residue_iff_eq_mask⟩
  obtain ⟨hnonneg, hlt⟩ := mask_toNat_mem_range v
  exact ⟨hnonneg, Int.le_sub_one_of_lt hlt⟩

end Sys2Proof.Machine

/-! Reads, and reads after a write, at any integer address (20_memory.md R41 to R45). -/
namespace Sys2Proof.Machine

/-- R41. -/
theorem State.memRead_eq_ok {s : State} {a : Int} (ha : 0 ≤ a ∧ a < s.cfg.memLen) :
    s.memRead a = .ok (s.mem.get a.toNat) := if_pos ha

/-- R43. -/
theorem State.memRead_eq_error {s : State} {a : Int} (ha : ¬(0 ≤ a ∧ a < s.cfg.memLen)) :
    s.memRead a = .error ⟨a⟩ := if_neg ha

/-- A read sees nothing of the state but the configuration and the memory. -/
theorem State.memRead_withMem (s : State) (m : Memory) (b : Int) : ({ s with mem := m } : State).memRead b =
    if 0 ≤ b ∧ b < s.cfg.memLen then .ok (m.get b.toNat) else .error ⟨b⟩ := rfl

/-- R45, first half. -/
theorem State.memRead_memWrite_same {s t : State} {a v : Int} (hwf : s.mem.wf = true) (hwrite : s.memWrite a v = .ok t) :
    t.memRead a = .ok (mask v) := by
  obtain ⟨hrange, rfl⟩ := State.memWrite_ok_iff.mp hwrite
  rw [State.memRead_withMem, if_pos hrange, Memory.get_set hwf, if_pos rfl]

/-- R45, second half. Two addresses in range are equal as soon as their cell numbers (`Int.toNat`) are; an address out of
range fails before and after alike, because a write leaves MEM_LEN as it is. -/
theorem State.memRead_memWrite_other {s t : State} {a b v : Int} (hwf : s.mem.wf = true)
    (hwrite : s.memWrite a v = .ok t) (hne : b ≠ a) : t.memRead b = s.memRead b := by
  obtain ⟨hrange, rfl⟩ := State.memWrite_ok_iff.mp hwrite
  rw [State.memRead_withMem]
  by_cases hb : 0 ≤ b ∧ b < s.cfg.memLen
  · have hcell : b.toNat ≠ a.toNat := by omega
    rw [if_pos hb, State.memRead_eq_ok hb, Memory.get_set hwf, if_neg hcell]
  · rw [if_neg hb, State.memRead_eq_error hb]

/-- Settles O10: a write in range sets one cell of the memory, which canonical form lets every later read see exactly. -/
theorem memoryReadsBackWhatWasWritten : Obligations.MemoryReadsBackWhatWasWritten := by
  intro s a v hwf
  constructor
  · intro hrange
    have hwrite := (State.memWrite_ok_iff (v := v)).mpr ⟨hrange, rfl⟩
    exact ⟨State.memRead_eq_ok hrange, _, hwrite, State.memRead_memWrite_same hwf hwrite,
      fun _ hne => State.memRead_memWrite_other hwf hwrite hne, rfl⟩
  · intro hout
    have hrange : ¬(0 ≤ a ∧ a < s.cfg.memLen) := by omega
    exact ⟨State.memRead_eq_error hrange, State.memWrite_error_iff.mpr ⟨hrange, rfl⟩⟩

end Sys2Proof.Machine

/-! The step by the outcome of its fetch, and the fetch by its first decision (40_cycle.md R81, R82). -/
namespace Sys2Proof.Machine

/-- A fault of the fetch ends the step. -/
theorem step_of_fetch_error {s : State} {f : FaultRecord} (hrun : s.status = .running) (hfetch : s.fetch = .error f) :
    step s = .next (s.raise f) := by
  rw [step_running hrun, cycle, hfetch]

theorem step_of_fetch_ok {s : State} {i : Instr} (hrun : s.status = .running) (hfetch : s.fetch = .ok i) :
    step s = exec i s := by
  rw [step_running hrun, cycle, hfetch]

theorem State.fetch_of_memLen_le_pc {s : State} (hpc : s.cfg.memLen ≤ s.pc) :
    s.fetch = .error (.outOfBounds .opcodeFetch s.pc) := by
  rw [State.fetch, State.fetchWord_eq, Nat.add_zero, if_neg (Nat.not_lt.mpr hpc)]

/-- Past a valid opcode in Memory, what is left of the fetch is its operands. -/
theorem State.fetch_of_decodeOpcode {s : State} {op : Mnemonic} (hpc : s.pc < s.cfg.memLen)
    (hop : decodeOpcode s.cfg.opcodeMap (s.codeWord 0) = some op) : s.fetch = s.fetchOperands op := by
  rw [State.fetch, State.fetchWord_eq, Nat.add_zero, if_pos hpc]
  simp only [hop]

/-- No instruction is special at a pc past Memory: its opcode fetch faults (R81). -/
theorem step_of_memLen_le_pc {s : State} (hrun : s.status = .running) (hpc : s.cfg.memLen ≤ s.pc) :
    step s = .next { s with status := .faulted (.outOfBounds .opcodeFetch s.pc) } :=
  step_of_fetch_error hrun (State.fetch_of_memLen_le_pc hpc)

end Sys2Proof.Machine

/-! The LDI step (41_load_immediate.md R100). -/
namespace Sys2Proof.Machine

/-- The operand fetch of LDI in full: operand 1, then operand 2 (R82). -/
theorem State.fetchOperands_ldi (s : State) :
    s.fetchOperands .ldi =
      if s.cfg.memLen ≤ s.pc + 1 then .error (.outOfBounds .operandFetch (s.pc + 1))
      else if s.cfg.memLen ≤ s.pc + 2 then .error (.outOfBounds .operandFetch (s.pc + 2))
      else .ok (.ldi (s.codeWord 1) (s.codeWord 2)) := by
  simp only [State.fetchOperands, State.fetchWord_eq, ← Nat.not_lt, ite_not]
  by_cases h1 : s.pc + 1 < s.cfg.memLen
  · by_cases h2 : s.pc + 2 < s.cfg.memLen
    · simp only [if_pos h1, if_pos h2]
    · simp only [if_pos h1, if_neg h2]
  · simp only [if_neg h1]

/-- The step at a Word the opcode map, whichever it is, decodes to LDI: the fetch's faults come before execute's. -/
theorem step_of_decodeOpcode_ldi {s : State} (hrun : s.status = .running) (hpc : s.pc < s.cfg.memLen)
    (hop : decodeOpcode s.cfg.opcodeMap (s.codeWord 0) = some .ldi) :
    step s =
      if s.cfg.memLen ≤ s.pc + 1 then .next (s.raise (.outOfBounds .operandFetch (s.pc + 1)))
      else if s.cfg.memLen ≤ s.pc + 2 then .next (s.raise (.outOfBounds .operandFetch (s.pc + 2)))
      else execLdi (s.codeWord 1) (s.codeWord 2) s := by
  have hfetch := (State.fetch_of_decodeOpcode hpc hop).trans s.fetchOperands_ldi
  by_cases h1 : s.cfg.memLen ≤ s.pc + 1
  · rw [if_pos h1] at hfetch ⊢
    exact step_of_fetch_error hrun hfetch
  · rw [if_neg h1] at hfetch ⊢
    by_cases h2 : s.cfg.memLen ≤ s.pc + 2
    · rw [if_pos h2] at hfetch ⊢
      exact step_of_fetch_error hrun hfetch
    · rw [if_neg h2] at hfetch ⊢
      exact step_of_fetch_ok hrun hfetch

/-- Settles O22: 0x82 decodes to LDI under the map of R66, so the step is LDI's operand fetch, then `execLdi`. -/
theorem ldiStepInFull : Obligations.LdiStepInFull := by
  intro s hrun hmap
  refine ⟨step_of_memLen_le_pc hrun, fun hpc hopcode => ?_⟩
  have hop : decodeOpcode s.cfg.opcodeMap (s.codeWord 0) = some .ldi := by
    rw [hmap, hopcode]
    decide
  rw [step_of_decodeOpcode_ldi hrun hpc hop, execLdi_eq]
  simp only [State.raise, ← Nat.not_lt, ite_not]

end Sys2Proof.Machine

/-! The PRN step (42_output.md R105). -/
namespace Sys2Proof.Machine

/-- The operand fetch of PRN in full (R82): its one operand is the Word after the opcode. -/
theorem State.fetchOperands_prn (s : State) :
    s.fetchOperands .prn =
      if s.cfg.memLen ≤ s.pc + 1 then .error (.outOfBounds .operandFetch (s.pc + 1)) else .ok (.prn (s.codeWord 1)) := by
  simp only [State.fetchOperands, State.fetchWord_eq, ← Nat.not_lt, ite_not]
  by_cases h1 : s.pc + 1 < s.cfg.memLen
  · simp only [if_pos h1]
  · simp only [if_neg h1]

/-- The step at a Word the opcode map, whichever it is, decodes to PRN: the fetch's fault comes before execute's. -/
theorem step_of_decodeOpcode_prn {s : State} (hrun : s.status = .running) (hpc : s.pc < s.cfg.memLen)
    (hop : decodeOpcode s.cfg.opcodeMap (s.codeWord 0) = some .prn) :
    step s =
      if s.cfg.memLen ≤ s.pc + 1 then .next (s.raise (.outOfBounds .operandFetch (s.pc + 1)))
      else execPrn (s.codeWord 1) s := by
  have hfetch := (State.fetch_of_decodeOpcode hpc hop).trans s.fetchOperands_prn
  by_cases h1 : s.cfg.memLen ≤ s.pc + 1
  · rw [if_pos h1] at hfetch ⊢
    exact step_of_fetch_error hrun hfetch
  · rw [if_neg h1] at hfetch ⊢
    exact step_of_fetch_ok hrun hfetch

/-- Settles O23: 0x47 decodes to PRN under the map of R66, so the step is PRN's operand fetch, then `execPrn`. -/
theorem prnStepInFull : Obligations.PrnStepInFull := by
  intro s hrun hmap
  refine ⟨step_of_memLen_le_pc hrun, fun hpc hopcode => ?_⟩
  have hop : decodeOpcode s.cfg.opcodeMap (s.codeWord 0) = some .prn := by
    rw [hmap, hopcode]
    decide
  rw [step_of_decodeOpcode_prn hrun hpc hop, execPrn_eq]
  simp only [State.raise, ← Nat.not_lt, ite_not]

end Sys2Proof.Machine

/-! The ALU's ADD (43_alu.md R112). -/
namespace Sys2Proof.Machine

/-- The ALU answers every ADD, whatever the operands (43_alu.md R112). -/
theorem alu_add (a b : Word) : alu .add a b = .ok (mask ((a.toNat : Int) + (b.toNat : Int)), []) := rfl

/-- The answer holds the sum's residue and no more: the carry leaves no trace. -/
theorem alu_add_eq_iff (a b c d : Word) :
    alu .add a b = alu .add c d ↔ (a.toNat + b.toNat) % 256 = (c.toNat + d.toNat) % 256 := by
  rw [alu_add, alu_add, Except.ok.injEq, Prod.mk.injEq, and_iff_left rfl, ← BitVec.toNat_inj, mask_add_toNat,
    mask_add_toNat]

/-- No instruction writes fl, neither completing nor faulting (10_state.md R25). -/
theorem exec_fl {i : Instr} {s t : State} (hexec : exec i s = .next t) : t.fl = s.fl := by
  obtain ⟨w, -, -, rfl⟩ | ⟨-, rfl⟩ | ⟨r, -, -, rfl⟩ | ⟨r, imm, -, -, rfl⟩ | ⟨ra, rb, -, -, -, rfl⟩ := exec_cases hexec
  all_goals rfl

/-- Settles O7: the answer is the mask of the exact sum, which keeps only its residue, and no instruction writes fl. -/
theorem aluAddIsMaskedSumWithoutFlags : Obligations.AluAddIsMaskedSumWithoutFlags := by
  refine ⟨fun a b => ⟨?_, _, alu_add a b, ?_, mask_add_toNat a b⟩, alu_add_eq_iff, fun _ _ _ _ => exec_fl⟩
  · have ha := a.isLt
    have hb := b.isLt
    omega
  · rw [Nat.cast_add]

end Sys2Proof.Machine

/-! The ADD step (43_alu.md R113). -/
namespace Sys2Proof.Machine

/-- The operand fetch of ADD in full: operand 1, then operand 2 (R82). -/
theorem State.fetchOperands_add (s : State) :
    s.fetchOperands .add =
      if s.cfg.memLen ≤ s.pc + 1 then .error (.outOfBounds .operandFetch (s.pc + 1))
      else if s.cfg.memLen ≤ s.pc + 2 then .error (.outOfBounds .operandFetch (s.pc + 2))
      else .ok (.add (s.codeWord 1) (s.codeWord 2)) := by
  simp only [State.fetchOperands, State.fetchWord_eq, ← Nat.not_lt, ite_not]
  split_ifs <;> rfl

/-- The step at a Word the opcode map, whichever it is, decodes to ADD: the fetch's faults come before execute's. -/
theorem step_of_decodeOpcode_add {s : State} (hrun : s.status = .running) (hpc : s.pc < s.cfg.memLen)
    (hop : decodeOpcode s.cfg.opcodeMap (s.codeWord 0) = some .add) :
    step s =
      if s.cfg.memLen ≤ s.pc + 1 then .next (s.raise (.outOfBounds .operandFetch (s.pc + 1)))
      else if s.cfg.memLen ≤ s.pc + 2 then .next (s.raise (.outOfBounds .operandFetch (s.pc + 2)))
      else execAdd (s.codeWord 1) (s.codeWord 2) s := by
  rw [step_running hrun, cycle, State.fetch_of_decodeOpcode hpc hop, State.fetchOperands_add]
  split_ifs <;> rfl

/-- Settles O24: 0xA0 decodes to ADD under the map of R66, so the step is ADD's operand fetch, then `execAdd`. -/
theorem addStepInFull : Obligations.AddStepInFull := by
  intro s hrun hmap
  refine ⟨step_of_memLen_le_pc hrun, fun hpc hopcode => ?_⟩
  have hop : decodeOpcode s.cfg.opcodeMap (s.codeWord 0) = some .add := by
    rw [hmap, hopcode]
    decide
  rw [step_of_decodeOpcode_add hrun hpc hop, execAdd_eq]
  simp only [State.raise, ← Nat.not_lt, ite_not]

end Sys2Proof.Machine

/-! Taking a fault (60_exceptions.md R134). -/
namespace Sys2Proof.Machine

/-- A raised fault is the one the status shows. -/
theorem State.raise_eq_raise_of_status {s : State} {f g : FaultRecord} (hfault : (s.raise g).status = .faulted f) :
    s.raise g = s.raise f := by
  rw [State.raise_status, Status.faulted.injEq] at hfault
  rw [hfault]

/-- An instruction that ends a running engine in Faulted has written no effect of its own: one that completes keeps the
status or halts. -/
theorem exec_eq_raise_of_faulted {i : Instr} {s t : State} {f : FaultRecord} (hrun : s.status = .running)
    (hexec : exec i s = .next t) (hfault : t.status = .faulted f) : t = s.raise f := by
  have hkept : s.status ≠ .faulted f := by rw [hrun]; exact Status.noConfusion
  obtain ⟨w, -, -, rfl⟩ | ⟨-, rfl⟩ | ⟨r, -, -, rfl⟩ | ⟨r, imm, -, -, rfl⟩ | ⟨ra, rb, -, -, -, rfl⟩ := exec_cases hexec
  · exact State.raise_eq_raise_of_status hfault
  · cases hfault
  all_goals exact absurd hfault hkept

/-- A fault of the fetch and a fault of execute are taken alike. -/
theorem step_eq_raise_of_faulted {s t : State} {f : FaultRecord} (hrun : s.status = .running) (hstep : step s = .next t)
    (hfault : t.status = .faulted f) : t = s.raise f := by
  obtain ⟨hready, -⟩ | ⟨-, g, -, rfl⟩ | ⟨-, i, -, hexec⟩ := step_cases hstep
  · rw [hrun] at hready
    cases hready
  · exact State.raise_eq_raise_of_status hfault
  · exact exec_eq_raise_of_faulted hrun hexec hfault

/-- Settles O27: every step of a running engine that ends in Faulted is `State.raise`, and Faulted is terminal. -/
theorem faultWritesOnlyStatusAndEndsTheRun : Obligations.FaultWritesOnlyStatusAndEndsTheRun := by
  intro s t f hrun hstep hfault
  have hterminal : t.status.terminal = true := by rw [hfault, Status.terminal]
  exact ⟨step_eq_raise_of_faulted hrun hstep hfault, fun _ => step_ne_next_of_terminal hterminal⟩

end Sys2Proof.Machine

/-! The decoder against the encoder and the assembler (30_encoding.md R60 to R69). -/
namespace Sys2Proof

/-- The operands taken for a mnemonic are those of an instruction with that mnemonic. -/
theorem decodeOperands_eq_ok_iff {op : Mnemonic} {ws rest : List Word} {i : Instr} :
    decodeOperands op ws = .ok (i, rest) ↔ i.mnemonic = op ∧ ws = i.operands ++ rest := by
  constructor
  · intro h
    unfold decodeOperands at h
    split at h <;> cases h <;> exact ⟨rfl, rfl⟩
  · rintro ⟨rfl, rfl⟩
    exact decodeOperands_operands i rest

/-- An instruction is known by its mnemonic and its operand Words. -/
theorem Instr.eq_of_mnemonic_of_operands {i j : Instr} (hm : i.mnemonic = j.mnemonic) (ho : i.operands = j.operands) :
    i = j := by
  have hi := decodeOperands_operands i []
  rw [hm, ho, decodeOperands_operands] at hi
  cases hi
  rfl

/-- Everything the decoder can do when it answers: an opcode of the map, then that instruction's operands. -/
theorem decode_eq_ok_iff {m : OpcodeMap} {ws rest : List Word} {i : Instr} :
    decode m ws = .ok (i, rest) ↔ ∃ w, decodeOpcode m w = some i.mnemonic ∧ ws = w :: (i.operands ++ rest) := by
  constructor
  · intro h
    cases ws with
    | nil => cases h
    | cons w ws =>
      rw [decode_cons] at h
      cases hop : decodeOpcode m w with
      | none => rw [hop] at h; cases h
      | some op =>
        rw [hop] at h
        obtain ⟨rfl, rfl⟩ := decodeOperands_eq_ok_iff.mp h
        exact ⟨w, hop, rfl⟩
  · rintro ⟨w, hop, rfl⟩
    rw [decode_cons, hop]
    exact decodeOperands_operands i rest

theorem decode_encode_append {m : OpcodeMap} (hm : m.WellFormed) (i : Instr) (rest : List Word) :
    decode m (encode m i ++ rest) = .ok (i, rest) :=
  decode_eq_ok_iff.mpr ⟨_, decodeOpcode_opcode hm _, rfl⟩

/-- Settles O1: an admissible map is read both ways, so what the decoder took off a list is the instruction's encoding. -/
theorem decodeInvertsEncode : Obligations.DecodeInvertsEncode := by
  intro m hm i ws rest
  constructor
  · intro h
    obtain ⟨w, hop, rfl⟩ := decode_eq_ok_iff.mp h
    rw [eq_opcode_of_decodeOpcode hop, encode, List.cons_append]
  · rintro rfl
    exact decode_encode_append hm i rest

/-- One decode of a packed program takes off its first instruction. -/
theorem decodeProgram_encode_append {m : OpcodeMap} (hm : m.WellFormed) {fuel : Nat} {ws : List Word} {is : List Instr}
    (i : Instr) (h : decodeProgram m fuel ws = .ok is) :
    decodeProgram m (fuel + 1) (encode m i ++ ws) = .ok (i :: is) := by
  have hdecode := decode_encode_append hm i ws
  rw [encode, List.cons_append] at hdecode ⊢
  rw [decodeProgram, hdecode]
  simp only [h]

/-- Settles O2, by induction on the program: the rest after the first instruction is the packed rest of the program. -/
theorem packedProgramDecodesBack : Obligations.PackedProgramDecodesBack := by
  intro m hm is
  induction is with
  | nil =>
    intro fuel _
    rw [encodeProgram, decodeProgram]
  | cons i is ih =>
    intro fuel hfuel
    cases fuel with
    | zero => exact absurd hfuel (Nat.not_succ_le_zero _)
    | succ fuel => exact decodeProgram_encode_append hm i (ih fuel (Nat.le_of_succ_le_succ hfuel))

/-- The Words without a decode rule (30_encoding.md R67). -/
theorem decodeOpcode_eq_none_iff {m : OpcodeMap} {w : Word} :
    decodeOpcode m w = none ↔ w ≠ m.hlt ∧ w ≠ m.prn ∧ w ≠ m.ldi ∧ w ≠ m.add := by
  unfold decodeOpcode
  split_ifs <;> simp [*]

/-- A valid opcode with missing operands is refused too, but not as an invalid opcode. -/
theorem decode_eq_invalidOpcode_iff {m : OpcodeMap} {w : Word} {rest : List Word} :
    decode m (w :: rest) = .error (.invalidOpcode w) ↔ decodeOpcode m w = none := by
  rw [decode_cons]
  cases decodeOpcode m w with
  | none => simp
  | some op =>
    simp only [reduceCtorEq, iff_false]
    unfold decodeOperands
    split <;> simp

/-- Settles O3: a refusal is a Word with no decode rule, and the rules are read off the map of R66. -/
theorem otherOpcodesAreInvalid : Obligations.OtherOpcodesAreInvalid :=
  ⟨fun _ _ => decode_eq_invalidOpcode_iff.trans decodeOpcode_eq_none_iff, by decide +kernel⟩

/-- Settles O4, by running the decoder on the five lists. -/
theorem specWordsDecode : Obligations.SpecWordsDecode := by
  unfold Obligations.SpecWordsDecode
  decide

/-- The list form names an operand Word by its value, which is its own mask (R68). -/
theorem assemble_asm (m : OpcodeMap) (i : Instr) : assemble m i.asm = encode m i := by
  cases i <;> simp [assemble, Instr.asm, AsmItem.word, encode, Instr.operands]

theorem mask_add_256 (v : Int) : Machine.mask (v + 256) = Machine.mask v := by
  rw [← BitVec.toNat_inj, ← Int.natCast_inj, Machine.mask_toNat, Machine.mask_toNat, Int.add_emod_right]

/-- Settles O5: the list form assembles to the encoding, which decodes back, and integers 256 apart have one mask. -/
theorem assemblerAgreesWithDecoder : Obligations.AssemblerAgreesWithDecoder := by
  constructor
  · intro m hm i rest
    rw [assemble_asm]
    exact decode_encode_append hm i rest
  · intro m n v
    simp only [assemble, List.map_cons, List.map_nil, AsmItem.word, mask_add_256]

end Sys2Proof

/-! The canonical form of Memory and the bits of fl (10_state.md R25, R29; 43_alu.md R110). -/
namespace Sys2Proof.Machine

/-- What the head cell of a canonical list says: its address is at or above the bound, it reads its Word, which is not 0,
and the other cells stand above it. -/
theorem Memory.wfFrom_cons {lo a : Nat} {v : Word} {m : Memory} (h : Memory.wfFrom lo ((a, v) :: m) = true) :
    lo ≤ a ∧ v ≠ 0#8 ∧ Memory.wfFrom (a + 1) m = true := by
  simpa [Memory.wfFrom, and_assoc] using h

theorem Memory.get_cons_self (a : Nat) (v : Word) (m : Memory) : Memory.get ((a, v) :: m) a = v := if_pos rfl

/-- A canonical memory that holds a Word other than 0 at an address lists no first cell above it. -/
theorem Memory.head_le_of_get_ne_zero {lo a b : Nat} {w : Word} {m : Memory} (h : Memory.wfFrom lo ((b, w) :: m) = true)
    (hget : Memory.get ((b, w) :: m) a ≠ 0#8) : b ≤ a := by
  obtain ⟨-, hw, hm⟩ := Memory.wfFrom_cons h
  by_contra hlt
  refine hget (Memory.get_eq_zero_of_lt (lo := b) ?_ (Nat.not_le.mp hlt))
  simp [Memory.wfFrom, hw, hm]

/-- The rests of two canonical memories that read alike, and begin with the same cell, read alike. -/
theorem Memory.get_tail_eq {a : Nat} {v : Word} {m n : Memory} (hm : Memory.wfFrom (a + 1) m = true)
    (hn : Memory.wfFrom (a + 1) n = true) (hget : ∀ x, Memory.get ((a, v) :: m) x = Memory.get ((a, v) :: n) x) (x : Nat) :
    Memory.get m x = Memory.get n x := by
  rcases eq_or_ne x a with rfl | hx
  · rw [Memory.get_eq_zero_of_lt hm (Nat.lt_succ_self x), Memory.get_eq_zero_of_lt hn (Nat.lt_succ_self x)]
  · simpa [Memory.get, hx] using hget x

theorem Memory.eq_of_get_eq {lo : Nat} {m n : Memory} (hm : Memory.wfFrom lo m = true) (hn : Memory.wfFrom lo n = true)
    (hget : ∀ x, Memory.get m x = Memory.get n x) : m = n := by
  induction m generalizing lo n with
  | nil =>
    cases n with
    | nil => rfl
    | cons c n =>
      obtain ⟨-, hw, -⟩ := Memory.wfFrom_cons hn
      exact absurd ((Memory.get_cons_self ..).symm.trans (hget c.1).symm) hw
  | cons c m ih =>
    obtain ⟨a, v⟩ := c
    obtain ⟨-, hv, hm'⟩ := Memory.wfFrom_cons hm
    have hva : v = Memory.get n a := (Memory.get_cons_self a v m).symm.trans (hget a)
    cases n with
    | nil => exact absurd hva hv
    | cons d n =>
      obtain ⟨b, w⟩ := d
      obtain ⟨-, hw, hn'⟩ := Memory.wfFrom_cons hn
      have hwb : w = Memory.get ((a, v) :: m) b := (Memory.get_cons_self b w n).symm.trans (hget b).symm
      have hba : b ≤ a := Memory.head_le_of_get_ne_zero hn (hva ▸ hv)
      have hab : a ≤ b := Memory.head_le_of_get_ne_zero hm (hwb ▸ hw)
      obtain rfl : a = b := Nat.le_antisymm hab hba
      obtain rfl : v = w := hva.trans (Memory.get_cons_self a w n)
      rw [ih hm' hn' (Memory.get_tail_eq hm' hn' hget)]

/-- Settles O11: canonical memories are read back cell by cell, each first cell being the lowest address not 0. -/
theorem memoryFormIsCanonical : Obligations.MemoryFormIsCanonical := fun _ _ => Memory.eq_of_get_eq

/-- The mask of one flag bit. -/
theorem getLsbD_one_shiftLeft (i j : Fin 8) : (1#8 <<< i.val).getLsbD j.val = decide (j = i) := by
  revert i j
  decide

/-- Settles O9: setting a bit is an or with its mask, clearing it an and with the mask's complement. -/
theorem flagEffectWritesItsOwnBit : Obligations.FlagEffectWritesItsOwnBit := by
  intro fl e j
  obtain ⟨bit, value⟩ := e
  have hmask := getLsbD_one_shiftLeft bit j
  cases value with
  | true =>
    rw [writeFlag, if_pos rfl, BitVec.getLsbD_or, hmask]
    by_cases hj : j = bit <;> simp [hj]
  | false =>
    rw [writeFlag, if_neg Bool.false_ne_true, BitVec.getLsbD_and, BitVec.getLsbD_not, hmask]
    by_cases hj : j = bit <;> simp [hj]

end Sys2Proof.Machine

/-! Execute as one equation per outcome of the register-index check (40_cycle.md R83 to R85). -/
namespace Sys2Proof.Machine

/-- The state after an instruction that completes (`exec_of_checkRegs_none` ties it to `exec`). -/
def State.completed (s : State) : Instr → State
  | .hlt => { s with status := .halted }
  | .prn r => { s with out := s.out ++ [s.readReg r.toNat], pc := s.pc + 2 }
  | .ldi r imm => { s with regs := s.regs.set r.toNat imm, pc := s.pc + 3 }
  | .add ra rb => { s with
      regs := s.regs.set ra.toNat (mask (((s.readReg ra.toNat).toNat : Int) + ((s.readReg rb.toNat).toNat : Int))),
      pc := s.pc + 3 }

/-- With valid register operands the instruction completes. -/
theorem exec_of_checkRegs_none {i : Instr} {s : State} (h : s.checkRegs i.regOperands = none) :
    exec i s = .next (s.completed i) := by
  cases i with
  | hlt => rfl
  | prn r => rw [exec, execPrn, h]; rfl
  | ldi r imm => rw [exec, execLdi, h]; rfl
  | add ra rb => rw [exec, execAdd, h]; rfl

/-- An invalid register operand is the instruction's fault. -/
theorem exec_of_checkRegs_some {i : Instr} {s : State} {f : FaultRecord} (h : s.checkRegs i.regOperands = some f) :
    exec i s = .next (s.raise f) := by
  cases i with
  | hlt => cases h
  | prn r => rw [exec, execPrn, h]
  | ldi r imm => rw [exec, execLdi, h]
  | add ra rb => rw [exec, execAdd, h]

theorem exec_total (i : Instr) (s : State) : ∃ t, exec i s = .next t := by
  cases h : s.checkRegs i.regOperands with
  | none => exact ⟨_, exec_of_checkRegs_none h⟩
  | some f => exact ⟨_, exec_of_checkRegs_some h⟩

@[simp] theorem State.completed_cfg (s : State) (i : Instr) : (s.completed i).cfg = s.cfg := by cases i <;> rfl
@[simp] theorem State.completed_mem (s : State) (i : Instr) : (s.completed i).mem = s.mem := by cases i <;> rfl
@[simp] theorem State.completed_sp (s : State) (i : Instr) : (s.completed i).sp = s.sp := by cases i <;> rfl
@[simp] theorem State.completed_fl (s : State) (i : Instr) : (s.completed i).fl = s.fl := by cases i <;> rfl

/-- A write stores into the register file and does not change its size. -/
@[simp] theorem State.completed_regs_length (s : State) (i : Instr) :
    (s.completed i).regs.length = s.regs.length := by
  cases i with
  | hlt | prn => rfl
  | ldi | add => exact List.length_set

/-- The status after completion is decided by `halts` (30_encoding.md R65). -/
theorem State.completed_status (s : State) (i : Instr) :
    (s.completed i).status = if i.mnemonic.attributes.halts then .halted else s.status := by cases i <;> rfl

/-- The pc after completion is decided by `halts` too, since no instruction sets pc itself (40_cycle.md R85, R86). -/
theorem State.completed_pc (s : State) (i : Instr) :
    (s.completed i).pc = if i.mnemonic.attributes.halts then s.pc else s.pc + 1 + i.mnemonic.operandCount := by
  cases i <;> rfl

end Sys2Proof.Machine

/-! The effect of each instruction (41 to 44). -/
namespace Sys2Proof.Machine

/-- Settles O12: a write sets one entry of the list, and the index is below the list's length. -/
theorem registersAreIndependent : Obligations.RegistersAreIndependent := by
  intro s i v hlen hi
  have hfile : i < s.regs.length := hlen ▸ hi
  refine ⟨?_, fun j hj => ?_⟩
  · rw [State.readReg_writeReg s i i v hfile, if_pos rfl]
  · rw [State.readReg_writeReg s i j v hfile, if_neg hj]

/-- Settles O13: LDI is one register write and the pc advance. -/
theorem ldiWritesImmediate : Obligations.LdiWritesImmediate := by
  intro s r imm hlen hr
  obtain ⟨hsame, hother⟩ := registersAreIndependent s r.toNat imm hlen hr
  rw [exec, execLdi_eq, if_pos hr]
  exact ⟨_, rfl, hsame, hother, List.length_set, rfl⟩

/-- Settles O14: with its one register valid, PRN is the emit and the pc advance. -/
theorem prnEmitsRegister : Obligations.PrnEmitsRegister := by
  intro s r hr
  rw [exec, execPrn_eq, if_pos hr]

/-- Settles O15: ADD is one register write, of the mask of the old values' sum, and the pc advance. -/
theorem addWritesSumModulo : Obligations.AddWritesSumModulo := by
  intro s ra rb hlen hra hrb
  obtain ⟨hsame, hother⟩ := registersAreIndependent s ra.toNat
    (mask (((s.readReg ra.toNat).toNat : Int) + ((s.readReg rb.toNat).toNat : Int))) hlen hra
  rw [exec, execAdd_eq, if_pos hra, if_pos hrb]
  exact ⟨_, rfl, (congrArg BitVec.toNat hsame).trans (mask_add_toNat _ _), hother, List.length_set, rfl⟩

/-- Settles O16: HLT is not advanced past. -/
theorem hltHaltsInPlace : Obligations.HltHaltsInPlace := execHlt_eq

/-- Settles O17: the register-index check of each instruction stops at its first invalid operand. -/
theorem invalidRegisterIndexFaults : Obligations.InvalidRegisterIndexFaults := by
  intro s ra rb imm
  refine ⟨fun hra => ?_, fun hra hrb => ?_⟩
  · have hra' := Nat.not_lt.mpr hra
    refine ⟨?_, ?_, ?_⟩
    · rw [exec, execLdi_eq, if_neg hra', State.raise]
    · rw [exec, execPrn_eq, if_neg hra', State.raise]
    · rw [exec, execAdd_eq, if_neg hra', State.raise]
  · rw [exec, execAdd_eq, if_pos hra, if_neg (Nat.not_lt.mpr hrb), State.raise]

/-- A register file with entry `i` set reads alike everywhere else, inside the file or not. -/
theorem State.readReg_writeReg_other (s : State) {i q : Nat} (v : Word) (hq : q ≠ i) :
    (s.writeReg i v).readReg q = s.readReg q := by
  simp only [State.readReg, State.writeReg_regs, List.getD_eq_getElem?_getD, List.getElem?_set_ne hq.symm]

/-- Settles O18: a fault and HLT write only status, PRN only out and pc, LDI and ADD only one register and pc. -/
theorem instructionFrame : Obligations.InstructionFrame := by
  intro i s t hexec
  obtain ⟨w, -, -, rfl⟩ | ⟨rfl, rfl⟩ | ⟨r, rfl, -, rfl⟩ | ⟨r, imm, rfl, -, rfl⟩ | ⟨ra, rb, rfl, -, -, rfl⟩ :=
    exec_cases hexec
  · exact ⟨rfl, rfl, rfl, fun _ => rfl, rfl, fun _ _ _ => rfl, .inl rfl, .inr (.inr ⟨_, rfl⟩)⟩
  · exact ⟨rfl, rfl, rfl, fun _ => rfl, rfl, fun _ _ _ => rfl, .inl rfl, .inr (.inl ⟨rfl, rfl⟩)⟩
  · exact ⟨rfl, rfl, rfl, fun _ => rfl, rfl, fun _ _ _ => rfl, .inr ⟨r, rfl, rfl⟩, .inl rfl⟩
  · exact ⟨rfl, rfl, rfl, fun _ => rfl, List.length_set,
      fun _ hldi _ => s.readReg_writeReg_other imm (hldi r imm rfl), .inl rfl, .inl rfl⟩
  · exact ⟨rfl, rfl, rfl, fun _ => rfl, List.length_set,
      fun _ _ hadd => s.readReg_writeReg_other _ (hadd ra rb rfl), .inl rfl, .inl rfl⟩

theorem Status.ne_halted_of_eq_running {st : Status} (hrun : st = .running) : st ≠ .halted := by
  rw [hrun]
  exact Status.noConfusion

/-- Settles O19: HLT has no register operand that could fault, and every other instruction keeps the status or faults. -/
theorem attributesGovernExecution : Obligations.AttributesGovernExecution := by
  intro i s t hrun hexec
  have hkept := Status.ne_halted_of_eq_running hrun
  obtain ⟨w, hw, -, rfl⟩ | ⟨rfl, rfl⟩ | ⟨r, rfl, -, rfl⟩ | ⟨r, imm, rfl, -, rfl⟩ | ⟨ra, rb, rfl, -, -, rfl⟩ :=
    exec_cases hexec
  · refine ⟨fun _ => rfl, fun _ => Status.noConfusion, fun hhalts => ?_, fun _ _ => Status.noConfusion⟩
    cases i with
    | hlt => cases hw
    | prn | ldi | add => cases hhalts
  · exact ⟨fun _ => rfl, Bool.noConfusion, fun _ => ⟨rfl, rfl⟩, Bool.noConfusion⟩
  · exact ⟨fun _ => rfl, fun _ => hkept, Bool.noConfusion, fun _ _ _ => rfl⟩
  · exact ⟨Bool.noConfusion, fun _ => hkept, Bool.noConfusion, fun _ _ _ => rfl⟩
  · exact ⟨Bool.noConfusion, fun _ => hkept, Bool.noConfusion, fun _ _ _ => rfl⟩

end Sys2Proof.Machine

/-! The step of a running engine, by its first fault (40_cycle.md R80 to R85, 60_exceptions.md R133). -/
namespace Sys2Proof.Machine

/-- Past the fetch, a step without a fault completes the instruction fetched. -/
theorem step_of_firstFault_none {s : State} (hrun : s.status = .running) (hfault : s.firstFault = none) :
    ∃ i, s.fetch = .ok i ∧ step s = .next (s.completed i) := by
  cases hfetch : s.fetch with
  | error f => rw [State.fetch_error hfetch] at hfault; cases hfault
  | ok i =>
    rw [State.firstFault_of_fetch_ok hfetch] at hfault
    exact ⟨i, rfl, (step_of_fetch_ok hrun hfetch).trans (exec_of_checkRegs_none hfault)⟩

/-- The first fault is taken, be it one of the fetch or of the register-index check. -/
theorem step_of_firstFault_some {s : State} {f : FaultRecord} (hrun : s.status = .running)
    (hfault : s.firstFault = some f) : step s = .next (s.raise f) := by
  cases hfetch : s.fetch with
  | error g =>
    rw [State.fetch_error hfetch, Option.some.injEq] at hfault
    rw [step_of_fetch_error hrun hfetch, hfault]
  | ok i =>
    rw [State.firstFault_of_fetch_ok hfetch] at hfault
    exact (step_of_fetch_ok hrun hfetch).trans (exec_of_checkRegs_some hfault)

/-- Everything a step of a running engine can do: take the first fault, or complete the instruction at pc. -/
theorem running_step_cases {s t : State} (hrun : s.status = .running) (hstep : step s = .next t) :
    (∃ f, s.firstFault = some f ∧ t = s.raise f) ∨
    (∃ i, s.firstFault = none ∧ s.fetch = .ok i ∧ t = s.completed i) := by
  cases hfault : s.firstFault with
  | some f =>
    rw [step_of_firstFault_some hrun hfault] at hstep
    cases hstep
    exact .inl ⟨f, rfl, rfl⟩
  | none =>
    obtain ⟨i, hfetch, hnext⟩ := step_of_firstFault_none hrun hfault
    rw [hnext] at hstep
    cases hstep
    exact .inr ⟨i, rfl, hfetch, rfl⟩

theorem step_ready {s : State} (hready : s.status = .ready) : step s = .next s.start := by
  rw [step, transition, hready]

theorem step_running_total {s : State} (hrun : s.status = .running) : ∃ t, step s = .next t := by
  cases hfault : s.firstFault with
  | some f => exact ⟨_, step_of_firstFault_some hrun hfault⟩
  | none =>
    obtain ⟨i, -, hstep⟩ := step_of_firstFault_none hrun hfault
    exact ⟨_, hstep⟩

/-- Outside the terminal statuses there is a next state. -/
theorem step_total_of_not_terminal {s : State} (h : s.status.terminal = false) : ∃ t, step s = .next t := by
  cases hs : s.status with
  | ready => exact ⟨_, step_ready hs⟩
  | running => exact step_running_total hs
  | halted | faulted => rw [hs] at h; cases h

theorem step_ne_refused (s : State) (r : Refusal) : step s ≠ .refused r := by
  intro hrefused
  cases hs : s.status with
  | ready => rw [step_ready hs] at hrefused; cases hrefused
  | running =>
    obtain ⟨t, hstep⟩ := step_running_total hs
    rw [hstep] at hrefused
    cases hrefused
  | halted | faulted => rw [step, transition, hs] at hrefused; cases hrefused

/-- Settles O20: exec and the step of a running engine are total, and the terminal statuses enable no step. -/
theorem onlyTerminalStatusesStop : Obligations.OnlyTerminalStatusesStop := by
  refine ⟨exec_total, fun s => ⟨fun ⟨t, hstep⟩ => ?_, step_total_of_not_terminal⟩, step_ne_refused⟩
  rw [← Bool.not_eq_true]
  exact fun hterminal => step_ne_next_of_terminal hterminal hstep

/-- A completed instruction leaves a running engine running or halted. -/
theorem State.completed_not_faulted {s : State} (hrun : s.status = .running) (i : Instr) (f : FaultRecord) :
    (s.completed i).status ≠ .faulted f := by
  rw [State.completed_status, hrun]
  split_ifs <;> exact Status.noConfusion

/-- Settles O26: a step takes its first fault, and a completed instruction is none. -/
theorem stepTakesFirstFault : Obligations.StepTakesFirstFault := by
  intro s hrun
  refine ⟨fun f hfault => step_of_firstFault_some hrun hfault, fun hfault => ?_⟩
  obtain ⟨i, -, hstep⟩ := step_of_firstFault_none hrun hfault
  exact ⟨_, hstep, State.completed_not_faulted hrun i⟩

/-- A fault a step ends with is the first fault of the state it started from. -/
theorem firstFault_of_step_faulted {s t : State} {f : FaultRecord} (hrun : s.status = .running)
    (hstep : step s = .next t) (hfault : t.status = .faulted f) : s.firstFault = some f := by
  obtain ⟨g, hfirst, rfl⟩ | ⟨i, -, -, rfl⟩ := running_step_cases hrun hstep
  · rw [State.raise_status, Status.faulted.injEq] at hfault
    rw [hfirst, hfault]
  · exact absurd hfault (State.completed_not_faulted hrun i f)

/-- The priority list of R133 names only the causes OutOfBounds and InvalidOpcode (60_exceptions.md R130). -/
theorem State.firstFault_code {s : State} {f : FaultRecord} (hfirst : s.firstFault = some f) : f.code ≤ 2 := by
  unfold State.firstFault at hfirst
  repeat' split at hfirst
  all_goals cases hfirst <;> simp [FaultRecord.code]

/-- Settles O8: the ALU implements ADD alone, and a step takes only the first fault, whose cause has code 1 or 2. -/
theorem unsupportedOperationIsUnreachable : Obligations.UnsupportedOperationIsUnreachable := by
  constructor
  · intro op a b
    cases op with
    | add => rw [alu_add]; exact ⟨fun h => absurd rfl h, fun h => by cases h⟩
    | other n => exact ⟨fun _ => rfl, fun _ => AluTag.noConfusion⟩
  · intro s t hrun hstep
    have hcode {f : FaultRecord} (hfault : t.status = .faulted f) : f.code ≤ 2 :=
      State.firstFault_code (firstFault_of_step_faulted hrun hstep hfault)
    exact ⟨fun hfault => absurd (hcode hfault) (by decide), fun _ hfault => absurd (hcode hfault) (Nat.not_succ_le_self 2)⟩

end Sys2Proof.Machine

/-! The invariant at reset and along every step (Safety.lean). -/
namespace Sys2Proof.Machine

theorem State.inv_construct {c : Config} (hc : c.WellFormed) : (State.construct c).Inv where
  cfg_wf := hc
  regs_len := List.length_replicate
  mem_wf := Memory.wf_nil
  mem_below := rfl
  pc_le := le_max_right c.memLen c.entry
  sp_reset := rfl
  fl_reset := rfl
  ready_boot := fun _ => ⟨rfl, rfl⟩
  halted_pc := Status.noConfusion
  fault_just := fun _ => Status.noConfusion

/-- Settles O35: the default parameters are admissible, and construction puts every field at its reset value. -/
theorem resetMeetsInvariant : Obligations.ResetMeetsInvariant :=
  ⟨State.inv_construct (by decide), fun _ => State.inv_construct⟩

/-- The invariant says of an engine that is running only what it says of every status. -/
theorem State.Inv.start {s : State} (hinv : s.Inv) : s.start.Inv :=
  { hinv with
    ready_boot := Status.noConfusion
    halted_pc := Status.noConfusion
    fault_just := fun _ => Status.noConfusion }

/-- Taking the first fault keeps pc and Memory, so it is still the first fault at pc. -/
theorem State.Inv.raise {s : State} {f : FaultRecord} (hinv : s.Inv) (hfirst : s.firstFault = some f) : (s.raise f).Inv :=
  { hinv with
    ready_boot := Status.noConfusion
    halted_pc := Status.noConfusion
    fault_just := fun g hg => by cases hg; exact hfirst }

/-- A running engine that completes the instruction at pc: it is an HLT and pc stays there, or pc moves on inside
Memory, at most to its end. -/
theorem State.Inv.completed {s : State} {i : Instr} (hinv : s.Inv) (hrun : s.status = .running) (hfetch : s.fetch = .ok i) :
    (s.completed i).Inv := by
  obtain ⟨hop, hend, -⟩ := State.fetch_ok hfetch
  exact {
    cfg_wf := by rw [State.completed_cfg]; exact hinv.cfg_wf
    regs_len := by rw [State.completed_cfg, State.completed_regs_length]; exact hinv.regs_len
    mem_wf := by rw [State.completed_mem]; exact hinv.mem_wf
    mem_below := by rw [State.completed_mem, State.completed_cfg]; exact hinv.mem_below
    pc_le := by rw [State.completed_pc, State.completed_cfg]; split_ifs <;> omega
    sp_reset := by rw [State.completed_sp, State.completed_cfg]; exact hinv.sp_reset
    fl_reset := by rw [State.completed_fl, State.completed_cfg]; exact hinv.fl_reset
    ready_boot := fun hready => by
      rw [State.completed_status, hrun] at hready
      split_ifs at hready
    halted_pc := fun hhalted => by
      cases i with
      | hlt => exact ⟨hend, eq_opcode_of_decodeOpcode hop⟩
      | prn | ldi | add => exact absurd hhalted (Status.ne_halted_of_eq_running hrun)
    fault_just := fun f hfault => absurd hfault (State.completed_not_faulted hrun i f) }

/-- Settles O36: a step starts the run, takes the first fault, or completes the instruction at pc, and each keeps the
invariant. -/
theorem stepKeepsInvariant : Obligations.StepKeepsInvariant := by
  intro s t hinv hstep
  cases hs : s.status with
  | ready =>
    rw [step_ready hs] at hstep
    cases hstep
    exact hinv.start
  | running =>
    obtain ⟨f, hfirst, rfl⟩ | ⟨i, -, hfetch, rfl⟩ := running_step_cases hs hstep
    · exact hinv.raise hfirst
    · exact hinv.completed hs hfetch
  | halted | faulted => exact absurd hstep (step_ne_next_of_terminal (by rw [hs]; rfl))

end Sys2Proof.Machine

/-! The step at an HLT Word, and at Words that decode (44_halt.md R120, 40_cycle.md R81 to R84). -/
namespace Sys2Proof.Machine

/-- The step at a Word the opcode map, whichever it is, decodes to HLT: no operand is fetched and no register checked. -/
theorem step_of_decodeOpcode_hlt {s : State} (hrun : s.status = .running) (hpc : s.pc < s.cfg.memLen)
    (hop : decodeOpcode s.cfg.opcodeMap (s.codeWord 0) = some .hlt) : step s = .next { s with status := .halted } :=
  step_of_fetch_ok hrun (State.fetch_of_decodeOpcode hpc hop)

/-- Settles O25: 0x01 decodes to HLT under the map of R66. -/
theorem hltStepInFull : Obligations.HltStepInFull := by
  intro s hrun hmap
  refine ⟨step_of_memLen_le_pc hrun, fun hpc hopcode => step_of_decodeOpcode_hlt hrun hpc ?_⟩
  rw [hmap, hopcode]
  decide

/-- A valid opcode whose operands are in Memory is fetched with them: the converse of `State.fetch_ok`. -/
theorem State.fetch_eq_ok {s : State} {i : Instr} (hop : decodeOpcode s.cfg.opcodeMap (s.codeWord 0) = some i.mnemonic)
    (hend : s.pc + i.mnemonic.operandCount < s.cfg.memLen)
    (hops : i.operands = (List.range' 1 i.mnemonic.operandCount).map s.codeWord) : s.fetch = .ok i := by
  rw [State.fetch_of_decodeOpcode (by omega) hop]
  obtain ⟨j, hj, hmnemonic, -, hwords⟩ | ⟨j, -, hfind⟩ := s.fetchOperands_cases i.mnemonic
  · rw [hj, Instr.eq_of_mnemonic_of_operands hmnemonic (hwords.trans hops.symm)]
  · have hpast := List.find?_some hfind
    have hmem := List.mem_range'_1.mp (List.mem_of_find?_eq_some hfind)
    rw [decide_eq_true_eq] at hpast
    omega

/-- An opcode and operands at the start of the window are the code Words at pc, and end inside Memory. -/
theorem State.codeWord_of_window {s : State} {w : Word} {ops rest : List Word} (h : s.window = w :: (ops ++ rest)) :
    s.codeWord 0 = w ∧ s.pc + ops.length < s.cfg.memLen ∧ ops = (List.range' 1 ops.length).map s.codeWord := by
  change (List.range _).map s.codeWord = _ at h
  have hlen := congrArg List.length h
  simp only [List.length_map, List.length_range, List.length_cons, List.length_append] at hlen
  rw [hlen, List.range_eq_range', List.range'_succ, List.map_cons, List.cons.injEq, ← List.range'_append, List.map_append]
    at h
  obtain ⟨hopcode, hops⟩ := h
  exact ⟨hopcode, by omega, (List.append_inj_left hops (by simp)).symm⟩

/-- Settles O21: the window holds the Words the fetch reads, so both find the same instruction. -/
theorem stepRunsDecodedInstruction : Obligations.StepRunsDecodedInstruction := by
  intro s i rest hrun hdecode
  obtain ⟨w, hop, hwindow⟩ := decode_eq_ok_iff.mp hdecode
  obtain ⟨rfl, hend, hops⟩ := State.codeWord_of_window hwindow
  rw [Instr.operands_length] at hend hops
  exact step_of_fetch_ok hrun (State.fetch_eq_ok hop hend hops)

end Sys2Proof.Machine

/-! What every step keeps (20_memory.md R51, R55; 60_exceptions.md R140). -/
namespace Sys2Proof.Machine

theorem exec_mem {i : Instr} {s t : State} (hexec : exec i s = .next t) : t.mem = s.mem := by
  obtain ⟨w, -, -, rfl⟩ | ⟨-, rfl⟩ | ⟨r, -, -, rfl⟩ | ⟨r, imm, -, -, rfl⟩ | ⟨ra, rb, -, -, -, rfl⟩ := exec_cases hexec
  all_goals rfl

/-- Settles O41: taking a fault and starting a run write status alone, and no instruction writes any of the four. -/
theorem memoryIsConstantDuringARun : Obligations.MemoryIsConstantDuringARun := by
  intro s t hstep
  obtain ⟨-, rfl⟩ | ⟨-, f, -, rfl⟩ | ⟨-, i, -, hexec⟩ := step_cases hstep
  · exact ⟨rfl, rfl, rfl, rfl⟩
  · exact ⟨rfl, rfl, rfl, rfl⟩
  · obtain ⟨hcfg, hsp, hfl, -⟩ := instructionFrame i s t hexec
    exact ⟨exec_mem hexec, hcfg, hsp, hfl⟩

/-- An instruction being executed reads neither Memory nor sp nor fl, and carries their values along. -/
theorem exec_withUnread {i : Instr} {s t : State} (mem : Memory) (sp fl : Word) (hexec : exec i s = .next t) :
    exec i { s with mem := mem, sp := sp, fl := fl } = .next { t with mem := mem, sp := sp, fl := fl } := by
  have hcheck : ({ s with mem := mem, sp := sp, fl := fl } : State).checkRegs i.regOperands = s.checkRegs i.regOperands := by
    rw [State.checkRegs_eq_find, State.checkRegs_eq_find]
  cases h : s.checkRegs i.regOperands with
  | none =>
    rw [exec_of_checkRegs_none h] at hexec
    rw [exec_of_checkRegs_none (hcheck.trans h)]
    cases hexec
    cases i <;> rfl
  | some f =>
    rw [exec_of_checkRegs_some h] at hexec
    rw [exec_of_checkRegs_some (hcheck.trans h)]
    cases hexec
    rfl

/-- A step depends on Memory, sp and fl only through what it fetches. -/
theorem step_withUnread {s t : State} (mem : Memory) (sp fl : Word)
    (hfetch : ({ s with mem := mem, sp := sp, fl := fl } : State).fetch = s.fetch) (hstep : step s = .next t) :
    step { s with mem := mem, sp := sp, fl := fl } = .next { t with mem := mem, sp := sp, fl := fl } := by
  obtain ⟨hready, rfl⟩ | ⟨hrun, f, hf, rfl⟩ | ⟨hrun, i, hi, hexec⟩ := step_cases hstep
  · exact step_ready hready
  · exact step_of_fetch_error hrun (hfetch.trans hf)
  · refine (step_of_fetch_ok ?_ (hfetch.trans hi)).trans (exec_withUnread mem sp fl hexec)
    exact hrun

/-- The fetch reads neither sp nor fl. -/
theorem State.fetch_withSpFl (s : State) (sp fl : Word) : ({ s with sp := sp, fl := fl } : State).fetch = s.fetch := by
  rfl

/-- Settles O42: the fetch reads neither sp nor fl, so the step carries them along. -/
theorem spAndFlInfluenceNothing : Obligations.SpAndFlInfluenceNothing := by
  intro s t p f hstep
  obtain ⟨hmem, -⟩ := memoryIsConstantDuringARun s t hstep
  rw [hmem]
  exact step_withUnread s.mem p f (s.fetch_withSpFl p f) hstep

/-- The operand fetch reads only the Words of the operands. -/
theorem State.fetchOperands_congr {s s' : State} {op : Mnemonic} (hcfg : s'.cfg = s.cfg) (hpc : s'.pc = s.pc)
    (hwords : ∀ j ≤ op.operandCount, s'.codeWord j = s.codeWord j) : s'.fetchOperands op = s.fetchOperands op := by
  cases op with
  | hlt => rfl
  | prn => simp only [State.fetchOperands_prn, hcfg, hpc, hwords 1 (by decide)]
  | ldi => simp only [State.fetchOperands_ldi, hcfg, hpc, hwords 1 (by decide), hwords 2 (by decide)]
  | add => simp only [State.fetchOperands_add, hcfg, hpc, hwords 1 (by decide), hwords 2 (by decide)]

/-- The fetch at a valid opcode inside Memory reads only the Words of its instruction. -/
theorem State.fetch_congr {s s' : State} {op : Mnemonic} (hcfg : s'.cfg = s.cfg) (hpc : s'.pc = s.pc)
    (hin : s.pc < s.cfg.memLen) (hop : decodeOpcode s.cfg.opcodeMap (s.codeWord 0) = some op)
    (hwords : ∀ j ≤ op.operandCount, s'.codeWord j = s.codeWord j) : s'.fetch = s.fetch := by
  have hin' : s'.pc < s'.cfg.memLen := by rwa [hcfg, hpc]
  have hop' : decodeOpcode s'.cfg.opcodeMap (s'.codeWord 0) = some op := by rwa [hcfg, hwords 0 (Nat.zero_le _)]
  rw [State.fetch_of_decodeOpcode hin hop, State.fetch_of_decodeOpcode hin' hop',
    State.fetchOperands_congr hcfg hpc hwords]

/-- Settles O43: the write leaves the instruction's own Words, which are all the fetch reads. -/
theorem stepReadsOnlyItsOwnWords : Obligations.StepReadsOnlyItsOwnWords := by
  intro s s' t m a v hwf hpc hop hother hwrite hstep
  obtain ⟨hrange, rfl⟩ := State.memWrite_ok_iff.mp hwrite
  have hwords : ∀ j ≤ m.operandCount,
      ({ s with mem := s.mem.set a.toNat (mask v) } : State).codeWord j = s.codeWord j := by
    intro j hj
    have hne : s.pc + j ≠ a.toNat := by omega
    exact (Memory.get_set hwf _ _ _).trans (if_neg hne)
  obtain ⟨-, -, hsp, hfl⟩ := memoryIsConstantDuringARun s t hstep
  rw [hsp, hfl]
  exact step_withUnread _ s.sp s.fl (State.fetch_congr rfl rfl hpc hop hwords) hstep

end Sys2Proof.Machine

/-! The pc, the output and the length of a run (40_cycle.md R85, R92; 42_output.md R106). -/
namespace Sys2Proof.Machine

/-- A step that leaves a running engine running has completed an instruction with at least one operand, which moves pc
past the instruction's last Word. -/
theorem step_stays_running {s t : State} (hrun : s.status = .running) (hstep : step s = .next t)
    (hrun' : t.status = .running) :
    ∃ m : Mnemonic, decodeOpcode s.cfg.opcodeMap (s.codeWord 0) = some m ∧ t.pc = s.pc + 1 + m.operandCount ∧
      1 ≤ m.operandCount ∧ t.pc ≤ s.cfg.memLen := by
  obtain ⟨f, -, rfl⟩ | ⟨i, -, hfetch, rfl⟩ := running_step_cases hrun hstep
  · cases hrun'
  · obtain ⟨hop, hend, -⟩ := State.fetch_ok hfetch
    refine ⟨i.mnemonic, hop, ?_⟩
    cases i with
    | hlt => cases hrun'
    | prn => exact ⟨rfl, le_rfl, Nat.succ_le_of_lt hend⟩
    | ldi | add => exact ⟨rfl, Nat.one_le_ofNat, Nat.succ_le_of_lt hend⟩

/-- A step that halts or faults leaves pc where it was. -/
theorem step_pc_of_not_running {s t : State} (hrun : s.status = .running) (hstep : step s = .next t)
    (hend : t.status ≠ .running) : t.pc = s.pc := by
  obtain ⟨f, -, rfl⟩ | ⟨i, -, -, rfl⟩ := running_step_cases hrun hstep
  · rfl
  · cases i with
    | hlt => rfl
    | prn | ldi | add => exact absurd hrun hend

/-- Settles O38: only a completed instruction that does not halt leaves the engine running. -/
theorem pcAdvancesByInstructionLength : Obligations.PcAdvancesByInstructionLength := by
  intro s t hrun hstep
  refine ⟨fun hrun' => ?_, step_pc_of_not_running hrun hstep⟩
  obtain ⟨m, hop, hpc, hcount, hle⟩ := step_stays_running hrun hstep hrun'
  exact ⟨m, hop, hpc, by omega, hle⟩

/-- A step of a running engine does not go back to Ready. -/
theorem step_running_or_terminal {s t : State} (hrun : s.status = .running) (hstep : step s = .next t) :
    t.status = .running ∨ t.status.terminal = true := by
  obtain ⟨f, -, rfl⟩ | ⟨i, -, -, rfl⟩ := running_step_cases hrun hstep
  · exact .inr rfl
  · rw [State.completed_status, hrun]
    split_ifs
    · exact .inr rfl
    · exact .inl rfl

/-- Settles O44: a fault and HLT emit nothing, and of the completed instructions that stay Running only PRN does. -/
theorem oneEventPerCompletedPrn : Obligations.OneEventPerCompletedPrn := by
  intro s t hrun hstep
  obtain ⟨f, -, rfl⟩ | ⟨i, -, hfetch, rfl⟩ := running_step_cases hrun hstep
  · exact (if_neg fun h => Status.noConfusion h.2).symm
  · obtain ⟨hop, -, hops⟩ := State.fetch_ok hfetch
    rw [hop]
    cases i with
    | prn r =>
      cases hops
      exact (if_pos ⟨rfl, hrun⟩).symm
    | hlt | ldi | add => exact (if_neg fun h => by cases h.1).symm

theorem runSteps_succ {s t : State} (hstep : step s = .next t) (k : Nat) : runSteps (k + 1) s = runSteps k t := by
  rw [runSteps, hstep]

/-- Settles O39, by induction on the Memory left after pc, which every step that stays Running makes smaller by two. -/
theorem everyRunEnds : Obligations.EveryRunEnds := by
  intro s
  induction hleft : s.cfg.memLen - s.pc using Nat.strong_induction_on generalizing s with
  | _ left ih =>
    intro hrun
    obtain ⟨t, hstep⟩ := step_running_total hrun
    obtain hrun' | hterminal := step_running_or_terminal hrun hstep
    · obtain ⟨m, -, hpc, hcount, hle⟩ := step_stays_running hrun hstep hrun'
      obtain ⟨-, hcfg, -⟩ := memoryIsConstantDuringARun s t hstep
      obtain ⟨k, u, hk, hbound, hsteps, hterminal⟩ := ih _ (by rw [hcfg]; omega) t rfl hrun'
      rw [hcfg] at hbound
      exact ⟨k + 1, u, by omega, by omega, (runSteps_succ hstep k).trans hsteps, hterminal⟩
    · exact ⟨1, t, le_rfl, by omega, runSteps_succ hstep 0, hterminal⟩

theorem runSteps_succ_eq_next {k : Nat} {s t : State} (h : runSteps (k + 1) s = .next t) :
    ∃ u, step s = .next u ∧ runSteps k u = .next t := by
  rw [runSteps] at h
  split at h
  · exact ⟨_, ‹_›, h⟩
  · cases h
  · cases h

/-- The loop of run() stops at a terminal status, whatever fuel is left. -/
theorem runLoop_of_terminal {s : State} (hterminal : s.status.terminal = true) (fuel : Nat) : runLoop fuel s = s := by
  cases fuel with
  | zero => rfl
  | succ fuel =>
    rw [runLoop, if_neg]
    intro hrun
    rw [hrun] at hterminal
    cases hterminal

/-- The loop of run() ends where the machine's own steps end, if its fuel lasts as long. -/
theorem runLoop_eq_of_runSteps {k fuel : Nat} {s t : State} (hfuel : k ≤ fuel)
    (hs : s.status = .running ∨ s.status.terminal = true) (hsteps : runSteps k s = .next t)
    (hterminal : t.status.terminal = true) : runLoop fuel s = t := by
  induction k generalizing fuel s with
  | zero =>
    cases hsteps
    exact runLoop_of_terminal hterminal fuel
  | succ k ih =>
    obtain ⟨u, hstep, hsteps⟩ := runSteps_succ_eq_next hsteps
    obtain ⟨fuel, rfl⟩ := Nat.exists_eq_add_of_lt hfuel
    obtain hrun | hs := hs
    · rw [runLoop, if_pos hrun, hstep]
      exact ih (Nat.le_add_right k fuel) (step_running_or_terminal hrun hstep) hsteps
    · exact absurd hstep (step_ne_next_of_terminal hs)

/-- Settles O40: the loop follows the steps of `everyRunEnds`, whose bound is its fuel. -/
theorem runReturnsTheTerminalState : Obligations.RunReturnsTheTerminalState := by
  intro s hready
  obtain ⟨k, t, hk, hbound, hsteps, hterminal⟩ := everyRunEnds s.start rfl
  have hrun : hostRun s = t := runLoop_eq_of_runSteps hbound (.inl rfl) hsteps hterminal
  refine ⟨t, ?_, hterminal, k, hk, hbound, (runSteps_succ (step_ready hready) k).trans hsteps⟩
  rw [← hrun]
  simp only [hostAct, hready]

end Sys2Proof.Machine

/-! The host's moves (70_reset_and_hazards.md R160 to R166, R175; 60_exceptions.md R152). -/
namespace Sys2Proof.Machine

section
variable (s : State)

theorem hostAct_reset : hostAct .reset s = if s.status = .running then none else some (.done, hostReset s) := by
  cases hs : s.status <;> simp [hostAct, hs]

theorem hostAct_load (program : List Int) (start : Int) :
    hostAct (.load program start) s = if s.status = .ready then some (hostLoad s program start) else none := by
  cases hs : s.status <;> simp [hostAct, hs]

theorem hostAct_preset (i v : Int) :
    hostAct (.preset i v) s = if s.status = .ready then some (hostPreset s i v) else none := by
  cases hs : s.status <;> simp [hostAct, hs]

theorem hostAct_run :
    hostAct .run s = if s.status = .running then none else some (.done, if s.status = .ready then hostRun s else s) := by
  cases hs : s.status <;> simp [hostAct, hs]

theorem hostAct_snapshot : hostAct .snapshot s = if s.status = .running then none else some (.snapshot s.view, s) := by
  cases hs : s.status <;> simp [hostAct, hs]

end

theorem Status.terminal_iff {st : Status} : st.terminal = true ↔ st ≠ .ready ∧ st ≠ .running := by
  cases st <;> simp [Status.terminal]

/-- Settles O29: the table of R175 has a move for reset, run and snapshot outside Running, for load and preset in Ready. -/
theorem hostMovesByStatus : Obligations.HostMovesByStatus := by
  constructor
  · intro s hterminal
    obtain ⟨hready, hrun⟩ := Status.terminal_iff.mp hterminal
    rw [hostAct_run, if_neg hrun, if_neg hready]
  · intro a s
    have hrunning : s.status = .running ∨ s.status ≠ .ready ↔ s.status ≠ .ready :=
      or_iff_right_of_imp fun h => by rw [h]; exact Status.noConfusion
    cases a with
    | reset => simp [hostAct_reset]
    | load => simp [hostAct_load, hrunning]
    | preset => simp [hostAct_preset, hrunning]
    | run => simp [hostAct_run]
    | snapshot => simp [hostAct_snapshot]

/-- Settles O28: a running step halts only at HLT, and outside Ready every move but reset answers the same state. -/
theorem statusTransitionsAreExactlyThese : Obligations.StatusTransitionsAreExactlyThese := by
  refine ⟨fun s => step_ready, fun s t hrun hstep => ?_, fun s => rfl, fun s hterminal => ⟨?_, ?_⟩⟩
  · obtain ⟨f, -, rfl⟩ | ⟨i, -, hfetch, rfl⟩ := running_step_cases hrun hstep
    · exact .inr (.inr ⟨f, rfl⟩)
    · obtain ⟨hop, -, -⟩ := State.fetch_ok hfetch
      cases i with
      | hlt => exact .inr (.inl ⟨rfl, eq_opcode_of_decodeOpcode hop⟩)
      | prn | ldi | add => exact .inl hrun
  · exact fun t => step_ne_next_of_terminal hterminal
  · intro a reply t hact
    obtain ⟨hready, hrun⟩ := Status.terminal_iff.mp hterminal
    cases a with
    | reset => exact .inl rfl
    | load => rw [hostAct_load, if_neg hready] at hact; cases hact
    | preset => rw [hostAct_preset, if_neg hready] at hact; cases hact
    | run => rw [hostAct_run, if_neg hrun, if_neg hready] at hact; cases hact; exact .inr rfl
    | snapshot => rw [hostAct_snapshot, if_neg hrun] at hact; cases hact; exact .inr rfl

/-- Settles O31: a preset is the range check, then one register write. -/
theorem presetWritesOneRegister : Obligations.PresetWritesOneRegister := by
  intro s i v hlen
  constructor
  · intro hi
    have hvalid : i.toNat < s.cfg.numRegs := by omega
    obtain ⟨hsame, hother⟩ := registersAreIndependent s i.toNat (mask v) hlen hvalid
    exact ⟨_, if_pos hi, hsame, hother, rfl⟩
  · intro hi
    exact if_neg (by omega)

/-- Every register reads 0 after construction, inside the file and past it. -/
theorem State.readReg_construct (c : Config) (i : Nat) : (State.construct c).readReg i = 0#8 := by
  rw [State.readReg, State.construct_regs, List.getD_eq_getElem?_getD, List.getElem?_replicate]
  split_ifs <;> rfl

/-- MEM_LEN - 1 is a Word for admissible parameters (00_scope.md R8). -/
theorem Config.resetSp_toNat {c : Config} (hc : c.WellFormed) : c.resetSp.toNat = c.memLen - 1 := by
  obtain ⟨-, hle, -⟩ := hc
  rw [Config.resetSp, BitVec.toNat_ofNat]
  omega

/-- Settles O32: reset is construction again with the same parameters, and the empty list reads 0 everywhere. -/
theorem resetRestoresEveryPieceOfState : Obligations.ResetRestoresEveryPieceOfState := by
  intro s hc hstatus
  rw [hostAct_reset, if_neg hstatus]
  exact ⟨_, rfl, rfl, List.length_replicate, State.readReg_construct s.cfg, rfl, Config.resetSp_toNat hc, rfl, rfl, rfl,
    fun a hnonneg hlt => State.memRead_eq_ok ⟨hnonneg, hlt⟩⟩

/-- Settles O33: with MEM_LEN = 256 the addresses in range are 0 to 255. -/
theorem defaultResetState : Obligations.DefaultResetState := by
  refine ⟨rfl, rfl, rfl, rfl, rfl, rfl, rfl, fun a => ?_⟩
  by_cases ha : 0 ≤ a ∧ a ≤ 255
  · rw [if_pos ha]
    exact State.memRead_eq_ok ⟨ha.1, Int.lt_add_one_of_le ha.2⟩
  · rw [if_neg ha]
    exact State.memRead_eq_error fun h => ha ⟨h.1, Int.le_of_lt_add_one h.2⟩

/-- The snapshot's Word at index `a` is the Word address `a` reads; past MEM_LEN there is neither. -/
theorem State.memoryContents_getElem?_iff (s : State) (a : Nat) (w : Word) :
    s.memoryContents[a]? = some w ↔ s.memRead a = .ok w := by
  rw [State.memRead_nat, State.memoryContents, List.getElem?_map]
  by_cases ha : a < s.cfg.memLen
  · simp [ha]
  · simp [ha]

/-- Settles O34: the view is read off the state, its Memory cell by cell. -/
theorem snapshotShowsAllAndChangesNothing : Obligations.SnapshotShowsAllAndChangesNothing := by
  intro s t reply hact
  rw [hostAct_snapshot] at hact
  split_ifs at hact
  cases hact
  exact ⟨rfl, s.view, rfl, rfl, rfl, rfl, rfl, rfl, rfl, (List.length_map _).trans List.length_range,
    s.memoryContents_getElem?_iff⟩

end Sys2Proof.Machine

/-! The loader (70_reset_and_hazards.md R165). -/
namespace Sys2Proof.Machine

/-- The number of values of a program of `length` that a load from `start` writes. -/
def loadCount (memLen : Nat) (start : Int) (length : Nat) : Nat :=
  if start < 0 then 0 else min length ((memLen : Int) - start).toNat

theorem loadCount_of_inRange {memLen length : Nat} {a : Int} (ha : 0 ≤ a ∧ a < memLen) :
    loadCount memLen a (length + 1) = loadCount memLen (a + 1) length + 1 := by
  unfold loadCount
  split_ifs <;> omega

theorem loadCount_of_outOfRange {memLen length : Nat} {a : Int} (ha : ¬(0 ≤ a ∧ a < memLen)) :
    loadCount memLen a length = 0 := by
  unfold loadCount
  split_ifs <;> omega

/-- A load writes Memory alone. -/
theorem hostLoad_frame (s : State) (program : List Int) (start : Int) :
    (hostLoad s program start).2 = { s with mem := (hostLoad s program start).2.mem } := by
  fun_induction hostLoad s program start with
  | case1 => rfl
  | case2 => rfl
  | case3 s v vs a s' hwrite ih =>
    obtain ⟨-, rfl⟩ := State.memWrite_ok_iff.mp hwrite
    exact ih

theorem loadCount_zero (memLen : Nat) (a : Int) : loadCount memLen a 0 = 0 := by
  rw [loadCount, Nat.zero_min, ite_self]

/-- The load is done when it has written the whole program, and otherwise names the first address it could not write. -/
theorem hostLoad_reply (s : State) (program : List Int) (start : Int) :
    (hostLoad s program start).1 =
      if loadCount s.cfg.memLen start program.length = program.length then .done
      else .outOfBounds (start + loadCount s.cfg.memLen start program.length) := by
  fun_induction hostLoad s program start with
  | case1 s a => rw [List.length_nil, loadCount_zero, if_pos rfl]
  | case2 s v vs a e hwrite =>
    obtain ⟨hrange, rfl⟩ := State.memWrite_error_iff.mp hwrite
    rw [loadCount_of_outOfRange hrange, List.length_cons, if_neg (Nat.zero_ne_add_one vs.length), Nat.cast_zero, Int.add_zero]
  | case3 s v vs a s' hwrite ih =>
    obtain ⟨hrange, rfl⟩ := State.memWrite_ok_iff.mp hwrite
    rw [ih, List.length_cons, loadCount_of_inRange hrange]
    simp only [Nat.add_right_cancel_iff, Nat.cast_add, Nat.cast_one, Int.add_assoc, Int.add_comm 1]

/-- A load leaves every address before its start and from its stopping point on. -/
theorem hostLoad_memRead_other {s : State} {program : List Int} {start b : Int} (hwf : s.mem.wf = true)
    (hb : b < start ∨ start + loadCount s.cfg.memLen start program.length ≤ b) :
    (hostLoad s program start).2.memRead b = s.memRead b := by
  fun_induction hostLoad s program start with
  | case1 => rfl
  | case2 => rfl
  | case3 s v vs a s' hwrite ih =>
    obtain ⟨hrange, rfl⟩ := State.memWrite_ok_iff.mp hwrite
    rw [List.length_cons, loadCount_of_inRange hrange] at hb
    have hne : b ≠ a := by omega
    rw [ih (Memory.wf_set hwf _ _) (by push_cast at hb; simp only; omega), State.memRead_memWrite_other hwf hwrite hne]

/-- Each value written is read back masked: the first because the rest of the load is written above it. -/
theorem hostLoad_memRead_written {s : State} {program : List Int} {start : Int} {k : Nat} (hwf : s.mem.wf = true)
    (hk : k < loadCount s.cfg.memLen start program.length) :
    (hostLoad s program start).2.memRead (start + k) = .ok (mask (program.getD k 0)) := by
  fun_induction hostLoad s program start generalizing k with
  | case1 => rw [List.length_nil, loadCount_zero] at hk; cases hk
  | case2 s v vs a e hwrite =>
    obtain ⟨hrange, -⟩ := State.memWrite_error_iff.mp hwrite
    rw [loadCount_of_outOfRange hrange] at hk
    cases hk
  | case3 s v vs a s' hwrite ih =>
    obtain ⟨hrange, rfl⟩ := State.memWrite_ok_iff.mp hwrite
    rw [List.length_cons, loadCount_of_inRange hrange] at hk
    cases k with
    | zero =>
      rw [Nat.cast_zero, Int.add_zero, hostLoad_memRead_other (Memory.wf_set hwf _ _) (.inl (Int.lt_succ a))]
      exact State.memRead_memWrite_same hwf hwrite
    | succ k =>
      have haddr : a + ((k + 1 : Nat) : Int) = a + 1 + k := by omega
      rw [haddr, List.getD_cons_succ]
      exact ih (Memory.wf_set hwf _ _) (Nat.lt_of_succ_lt_succ hk)

/-- Settles O30, each clause by induction on the program: one value in range is one write, then the load of the rest. -/
theorem loadWritesUpToTheFirstBadAddress : Obligations.LoadWritesUpToTheFirstBadAddress := by
  intro s program start hwf
  exact ⟨hostLoad_reply s program start, hostLoad_frame s program start, fun _ => hostLoad_memRead_written hwf,
    fun _ => hostLoad_memRead_other hwf⟩

/-- A load keeps the canonical form and the bounds of Memory. -/
theorem hostLoad_keeps_form {s : State} {program : List Int} {start : Int} (hwf : s.mem.wf = true)
    (hbelow : s.mem.below s.cfg.memLen = true) :
    (hostLoad s program start).2.mem.wf = true ∧ (hostLoad s program start).2.mem.below s.cfg.memLen = true := by
  fun_induction hostLoad s program start with
  | case1 | case2 => exact ⟨hwf, hbelow⟩
  | case3 s v vs a s' hwrite ih =>
    obtain ⟨hwf', hbelow'⟩ := State.memWrite_keeps_form hwrite hwf hbelow
    obtain ⟨-, rfl⟩ := State.memWrite_ok_iff.mp hwrite
    exact ih hwf' hbelow'

end Sys2Proof.Machine

/-! The invariant along the host's moves (70_reset_and_hazards.md R175). -/
namespace Sys2Proof.Machine

/-- In Ready the invariant says of Memory only its form and its bounds. -/
theorem State.Inv.withMem {s : State} {m : Memory} (hinv : s.Inv) (hready : s.status = .ready) (hwf : m.wf = true)
    (hbelow : m.below s.cfg.memLen = true) : ({ s with mem := m } : State).Inv :=
  { hinv with
    mem_wf := hwf
    mem_below := hbelow
    halted_pc := fun h => by cases hready.symm.trans h
    fault_just := fun _ h => by cases hready.symm.trans h }

theorem State.Inv.hostLoad {s : State} (hinv : s.Inv) (hready : s.status = .ready) (program : List Int) (start : Int) :
    (hostLoad s program start).2.Inv := by
  obtain ⟨hwf, hbelow⟩ := hostLoad_keeps_form (program := program) (start := start) hinv.mem_wf hinv.mem_below
  rw [hostLoad_frame]
  exact hinv.withMem hready hwf hbelow

/-- The invariant says of the registers only how many there are. -/
theorem State.Inv.writeReg {s : State} (hinv : s.Inv) (i : Nat) (v : Word) : (s.writeReg i v).Inv :=
  { hinv with regs_len := List.length_set.trans hinv.regs_len }

theorem State.Inv.hostPreset {s : State} (hinv : s.Inv) (i v : Int) : (hostPreset s i v).2.Inv := by
  rw [Machine.hostPreset]
  split_ifs
  · exact hinv.writeReg _ _
  · exact hinv

theorem State.Inv.runLoop {s : State} (hinv : s.Inv) (fuel : Nat) : (runLoop fuel s).Inv := by
  fun_induction Machine.runLoop fuel s with
  | case1 | case3 | case4 | case5 => exact hinv
  | case2 fuel s hrun t hstep ih => exact ih (stepKeepsInvariant s t hinv hstep)

/-- Settles O37: a run is the start and steps, and the other moves touch only what the invariant leaves free in Ready. -/
theorem hostActionsKeepInvariant : Obligations.HostActionsKeepInvariant := by
  intro a s t reply hinv hact
  cases a with
  | reset =>
    rw [hostAct_reset] at hact
    split_ifs at hact
    cases hact
    exact State.inv_construct hinv.cfg_wf
  | load program start =>
    rw [hostAct_load] at hact
    split_ifs at hact with hready
    have h := hinv.hostLoad hready program start
    rwa [Option.some.inj hact] at h
  | preset i v =>
    rw [hostAct_preset] at hact
    split_ifs at hact
    have h := hinv.hostPreset i v
    rwa [Option.some.inj hact] at h
  | run =>
    rw [hostAct_run] at hact
    split_ifs at hact <;> cases hact
    · exact hinv.start.runLoop s.runBound
    · exact hinv
  | snapshot =>
    rw [hostAct_snapshot] at hact
    split_ifs at hact
    cases hact
    exact hinv

end Sys2Proof.Machine
